-- ==== Sys2Proof/Word.lean ====
section
/-!
DEFINITION. The two words of the hardware: a memory cell or instruction byte, and a register word.
Both are 8 bits wide and unsigned (`00_scope.md` rules R7 and R9; log 1 for the register width).
-/

namespace Sys2Proof

/-- A memory cell, an opcode byte or an operand byte: 8 bits (`00_scope.md` rule R7). -/
abbrev Byte := BitVec 8

/-- A register word: `W = 8` bits, unsigned (`00_scope.md` rule R9, decision D1, log 1). -/
abbrev Word := BitVec 8

end Sys2Proof
end

