-- ==== Sys2Proof/Syntax.lean ====
section
/-!
DEFINITION. The whole instruction set as data: the register names, the 23 mnemonics of the dispatch table
(`30_encoding.md` rule R87) and the instructions with their operand bytes.
An operand is kept as the raw byte: a byte of 8 or more is a legal encoding whose use as a register index
faults when the instruction runs (`10_state.md` rule R22), so the decoder must not lose it.
-/

namespace Sys2Proof

/-- The eight general registers R0 to R7 (`10_state.md` rules R20 and R21). -/
inductive Reg where
  | r0 | r1 | r2 | r3 | r4 | r5 | r6 | r7
  deriving DecidableEq, Repr

/-- `SP` is another name of register 7 (`10_state.md` rules R21 and R24). -/
abbrev Reg.sp : Reg := .r7

/-- The keys of the dispatch table, in the order of `30_encoding.md` rule R87. -/
inductive Mnemonic where
  | hlt | ldi | prn | push | pop | call | ret | jmp | jeq | jne
  | add | sub | mul | div | mod | and | or | xor | shl | shr | inc | dec | cmp
  deriving DecidableEq, Repr

/-- An instruction: the transient tuple of opcode and operand bytes (`10_state.md` rule R38), one constructor
per row of the opcode table, with exactly the operand bytes its format has (`30_encoding.md` rule R82). -/
inductive Instr where
  | hlt
  | ldi (opA imm : Byte)
  | prn (opA : Byte)
  | push (opA : Byte)
  | pop (opA : Byte)
  | call (opA : Byte)
  | ret
  | jmp (opA : Byte)
  | jeq (opA : Byte)
  | jne (opA : Byte)
  | add (opA opB : Byte)
  | sub (opA opB : Byte)
  | mul (opA opB : Byte)
  | div (opA opB : Byte)
  | mod (opA opB : Byte)
  | and (opA opB : Byte)
  | or (opA opB : Byte)
  | xor (opA opB : Byte)
  | shl (opA opB : Byte)
  | shr (opA opB : Byte)
  | inc (opA : Byte)
  | dec (opA : Byte)
  | cmp (opA opB : Byte)
  deriving DecidableEq, Repr

/-- The dispatch-table key of an instruction (`30_encoding.md` rule R87). -/
def Instr.mnemonic : Instr → Mnemonic
  | .hlt => .hlt
  | .ldi _ _ => .ldi
  | .prn _ => .prn
  | .push _ => .push
  | .pop _ => .pop
  | .call _ => .call
  | .ret => .ret
  | .jmp _ => .jmp
  | .jeq _ => .jeq
  | .jne _ => .jne
  | .add _ _ => .add
  | .sub _ _ => .sub
  | .mul _ _ => .mul
  | .div _ _ => .div
  | .mod _ _ => .mod
  | .and _ _ => .and
  | .or _ _ => .or
  | .xor _ _ => .xor
  | .shl _ _ => .shl
  | .shr _ _ => .shr
  | .inc _ => .inc
  | .dec _ => .dec
  | .cmp _ _ => .cmp

/-- The operand bytes of an instruction in memory order, `operand_a` first (`30_encoding.md` rules R80 and R82). -/
def Instr.operands : Instr → List Byte
  | .hlt | .ret => []
  | .prn a | .push a | .pop a | .call a | .jmp a | .jeq a | .jne a | .inc a | .dec a => [a]
  | .ldi a b | .add a b | .sub a b | .mul a b | .div a b | .mod a b => [a, b]
  | .and a b | .or a b | .xor a b | .shl a b | .shr a b | .cmp a b => [a, b]

/-- The operand bytes that are register indices, `operand_a` first: every operand but the immediate of LDI
(`30_encoding.md` rule R84). -/
def Instr.registerOperands : Instr → List Byte
  | .hlt | .ret => []
  | .ldi a _ => [a]
  | .prn a | .push a | .pop a | .call a | .jmp a | .jeq a | .jne a | .inc a | .dec a => [a]
  | .add a b | .sub a b | .mul a b | .div a b | .mod a b => [a, b]
  | .and a b | .or a b | .xor a b | .shl a b | .shr a b | .cmp a b => [a, b]

end Sys2Proof
end

