-- ==== Sys2Proof/WellFormed.lean ====
section
/-!
DEFINITION. A well-formed instruction names only registers that exist (`30_encoding.md` rule R84,
`92_eei_decisions.md` D28). The machine does not require it: an ill-formed instruction decodes and runs, and the
use of the bad byte is the fault RegOutOfRange (`10_state.md` rule R22, log 32).
-/

namespace Sys2Proof

/-- Does an operand byte name one of the eight registers (`10_state.md` rule R22)? -/
def isRegisterByte (b : Byte) : Bool := decide (b.toNat < 8)

/-- Every register operand of the instruction names a register (`30_encoding.md` rule R84). -/
def Instr.wellFormed (i : Instr) : Bool := i.registerOperands.all isRegisterByte

end Sys2Proof
end

