-- ==== Sys2Proof/Decode.lean ====
section
/-!
DEFINITION. The instruction decoder (dispatch table) and the encoder, from `30_encoding.md`.
The decoder is written from the hexadecimal column of rule R86 (and table V1 of `95_test_vectors.md`), the encoder from its
binary column; that the two agree is an obligation. The low nibbles are the default `OPC` of rule R86 (log 2).
-/

namespace Sys2Proof

/-- Bits 7:6 of the opcode byte, `(ir >> 6) & 0b11` (`30_encoding.md` rule R81, `40_engine_cycle.md` rule R112). -/
def operandCount (ir : Byte) : Nat := (ir.toNat >>> 6) &&& 0b11

/-- Bit 5 of the opcode byte, `(ir >> 5) & 1` (`30_encoding.md` rule R81). -/
def aluClass (ir : Byte) : Bool := ((ir.toNat >>> 5) &&& 1) == 1

/-- Bit 4 of the opcode byte, `(ir >> 4) & 1` (`30_encoding.md` rule R81). -/
def pcIsSetByHandler (ir : Byte) : Bool := ((ir.toNat >>> 4) &&& 1) == 1

/-- Bits 3:0 of the opcode byte, the identity within the class (`30_encoding.md` rule R81). -/
def identityNibble (ir : Byte) : Nat := ir.toNat &&& 0b1111

/-- The dispatch table's `lookup(opcode) -> Handler?` (`30_encoding.md` rules R86 to R88): one byte, every byte
outside the 23 gives "empty". -/
def lookup (ir : Byte) : Option Mnemonic :=
  match ir.toNat with
  | 0x01 => some .hlt
  | 0x11 => some .ret
  | 0x45 => some .push
  | 0x46 => some .pop
  | 0x47 => some .prn
  | 0x50 => some .call
  | 0x54 => some .jmp
  | 0x55 => some .jeq
  | 0x56 => some .jne
  | 0x65 => some .inc
  | 0x66 => some .dec
  | 0x82 => some .ldi
  | 0xA0 => some .add
  | 0xA1 => some .sub
  | 0xA2 => some .mul
  | 0xA3 => some .div
  | 0xA4 => some .mod
  | 0xA7 => some .cmp
  | 0xA8 => some .and
  | 0xAA => some .or
  | 0xAB => some .xor
  | 0xAC => some .shl
  | 0xAD => some .shr
  | _ => none

/-- The instruction a handler of the dispatch table makes of the operand bytes: it uses only the ones its
format has (`40_engine_cycle.md` rule R115, `30_encoding.md` rule R83). -/
def Mnemonic.withOperands (m : Mnemonic) (opA opB : Byte) : Instr :=
  match m with
  | .hlt => .hlt
  | .ldi => .ldi opA opB
  | .prn => .prn opA
  | .push => .push opA
  | .pop => .pop opA
  | .call => .call opA
  | .ret => .ret
  | .jmp => .jmp opA
  | .jeq => .jeq opA
  | .jne => .jne opA
  | .add => .add opA opB
  | .sub => .sub opA opB
  | .mul => .mul opA opB
  | .div => .div opA opB
  | .mod => .mod opA opB
  | .and => .and opA opB
  | .or => .or opA opB
  | .xor => .xor opA opB
  | .shl => .shl opA opB
  | .shr => .shr opA opB
  | .inc => .inc opA
  | .dec => .dec opA
  | .cmp => .cmp opA opB

/-- Why bytes are not an instruction. -/
inductive DecodeError where
  /-- There is no opcode byte. Never met by the engine, which always hands over three bytes. -/
  | noBytes
  /-- The opcode byte is not one of the 23 (`30_encoding.md` rule R88). -/
  | unrecognized (ir : Byte)
  /-- The bytes end before the operands the opcode byte announces. Never met by the engine. -/
  | truncated (ir : Byte)
  deriving DecidableEq, Repr

/-- Take the operand bytes that bits 7:6 of the opcode byte announce, and give the bytes after them
(`30_encoding.md` rules R80 and R82). -/
def decodeOperands (m : Mnemonic) (ir : Byte) (rest : List Byte) : Except DecodeError (Instr × List Byte) :=
  match operandCount ir, rest with
  | 0, rest => .ok (m.withOperands 0 0, rest)
  | 1, opA :: rest => .ok (m.withOperands opA 0, rest)
  | 2, opA :: opB :: rest => .ok (m.withOperands opA opB, rest)
  | _, _ => .error (.truncated ir)

/-- Decode the instruction at the head of a byte sequence and give the bytes after it. The opcode byte alone decides
what it is (`30_encoding.md` rules R80, R87 and R88). -/
def decode : List Byte → Except DecodeError (Instr × List Byte)
  | [] => .error .noBytes
  | ir :: rest =>
    match lookup ir with
    | none => .error (.unrecognized ir)
    | some m => decodeOperands m ir rest

/-- `OPC`, the opcode byte of a mnemonic: the binary column of `30_encoding.md` rule R86 (log 2). -/
def opc : Mnemonic → Byte
  | .hlt => 0b00000001#8
  | .ret => 0b00010001#8
  | .push => 0b01000101#8
  | .pop => 0b01000110#8
  | .prn => 0b01000111#8
  | .call => 0b01010000#8
  | .jmp => 0b01010100#8
  | .jeq => 0b01010101#8
  | .jne => 0b01010110#8
  | .inc => 0b01100101#8
  | .dec => 0b01100110#8
  | .ldi => 0b10000010#8
  | .add => 0b10100000#8
  | .sub => 0b10100001#8
  | .mul => 0b10100010#8
  | .div => 0b10100011#8
  | .mod => 0b10100100#8
  | .cmp => 0b10100111#8
  | .and => 0b10101000#8
  | .or => 0b10101010#8
  | .xor => 0b10101011#8
  | .shl => 0b10101100#8
  | .shr => 0b10101101#8

/-- The bytes of an instruction at ascending addresses: opcode, `operand_a`, `operand_b`
(`30_encoding.md` rules R80, R82 and R97). -/
def encode (i : Instr) : List Byte := opc i.mnemonic :: i.operands

/-- The register an operand byte names, if it names one: the whole byte is the index (`30_encoding.md` rule R84). -/
def Reg.ofByte? (b : Byte) : Option Reg :=
  match b.toNat with
  | 0 => some .r0
  | 1 => some .r1
  | 2 => some .r2
  | 3 => some .r3
  | 4 => some .r4
  | 5 => some .r5
  | 6 => some .r6
  | 7 => some .r7
  | _ => none

/-- The operand byte of a register (`30_encoding.md` rule R93). -/
def Reg.toByte : Reg → Byte
  | .r0 => 0x00#8
  | .r1 => 0x01#8
  | .r2 => 0x02#8
  | .r3 => 0x03#8
  | .r4 => 0x04#8
  | .r5 => 0x05#8
  | .r6 => 0x06#8
  | .r7 => 0x07#8

/-- The mnemonic as assembly writes it, in upper case (`30_encoding.md` rules R87 and R91). -/
def Mnemonic.name : Mnemonic → String
  | .hlt => "HLT"
  | .ldi => "LDI"
  | .prn => "PRN"
  | .push => "PUSH"
  | .pop => "POP"
  | .call => "CALL"
  | .ret => "RET"
  | .jmp => "JMP"
  | .jeq => "JEQ"
  | .jne => "JNE"
  | .add => "ADD"
  | .sub => "SUB"
  | .mul => "MUL"
  | .div => "DIV"
  | .mod => "MOD"
  | .and => "AND"
  | .or => "OR"
  | .xor => "XOR"
  | .shl => "SHL"
  | .shr => "SHR"
  | .inc => "INC"
  | .dec => "DEC"
  | .cmp => "CMP"

/-- The assembly name of a register operand, `R0` to `R7` (`30_encoding.md` rule R93). -/
def Reg.name : Reg → String
  | .r0 => "R0"
  | .r1 => "R1"
  | .r2 => "R2"
  | .r3 => "R3"
  | .r4 => "R4"
  | .r5 => "R5"
  | .r6 => "R6"
  | .r7 => "R7"

/-- One line of assembly for a well-formed instruction: the mnemonic, then the operands in byte order, separated by
a comma; the immediate of LDI in decimal (`30_encoding.md` rules R91 to R93). An operand byte that names no register
has no spelling, so the answer is then `none` (log 35). -/
def Instr.asm? (i : Instr) : Option String :=
  match i.registerOperands.mapM Reg.ofByte?, i with
  | none, _ => none
  | some regs, .ldi _ imm => some ("LDI " ++ ", ".intercalate (regs.map Reg.name ++ [toString imm.toNat]))
  | some [], i => some i.mnemonic.name
  | some regs, i => some (i.mnemonic.name ++ " " ++ ", ".intercalate (regs.map Reg.name))

/-- The number of bytes of the longest instruction (`30_encoding.md` rule R82, format B). -/
def maxInstrBytes : Nat := 3

/-- The bytes of a number laid out as `spec/opcode_table.json` numbers an instruction's bits: bits 7:0 are the byte at
the lowest address, bits 15:8 the next. Every bit from `nbits` up is 0. -/
def tableWordBytes (nbits w : Nat) : List Byte :=
  (List.range maxInstrBytes).map fun k => BitVec.ofNat 8 ((w % 2 ^ nbits) >>> (8 * k))

/-- The instruction the decoder reads from a table word. -/
def decodeTableWord (nbits w : Nat) : Option Instr :=
  match decode (tableWordBytes nbits w) with
  | .ok (i, _) => some i
  | .error _ => none

end Sys2Proof
end

