-- ==== Sys2Proof/Config.lean ====
section
/-!
DEFINITION. The parameters of `00_scope.md` section 4 that are fixed for this hardware, and the type of the
one model argument, `UNSUPPORTED_POLICY`. The opcode map `OPC` (rule R14) is `opc` in Decode.lean.
No parameter of this hardware is a free value (log 36).
-/

namespace Sys2Proof

/-- `MEM_SIZE`: the number of memory cells (`00_scope.md` rule R7). -/
def Config.memSize : Nat := 256

/-- `SP_RESET`: register 7 after reset (`00_scope.md` rule R10). -/
def Config.spReset : Word := 0xF4#8

/-- `PC_RESET`: the program counter after reset (`00_scope.md` rule R11). -/
def Config.pcReset : Nat := 0

/-- `UNSUPPORTED_POLICY` (`00_scope.md` rule R12): what an unrecognized opcode does. -/
inductive UnsupportedPolicy where
  /-- The UnsupportedOpcode fault; the default. -/
  | fatal
  /-- Report and advance the program counter by 1. -/
  | skip
  deriving DecidableEq, Repr

/-- The default of `UNSUPPORTED_POLICY` (`00_scope.md` rule R12). -/
def Config.defaultPolicy : UnsupportedPolicy := .fatal

end Sys2Proof
end

