-- ==== Sys2Proof/Machine/State.lean ====
section
/-!
DEFINITION. The state of the core as plain data (`10_state.md`), the causes a run can fault with
(`60_exceptions.md` rule R210), and the state after reset (`10_state.md` rule R40).
-/

namespace Sys2Proof.Machine

/-- Which access a memory fault was raised by (`60_exceptions.md` rule R211). -/
inductive AccessKind where
  | fetchOpcode
  | fetchOperandA
  | fetchOperandB
  | stackRead
  | stackWrite
  deriving DecidableEq, Repr

/-- Which instruction divided by zero (`60_exceptions.md` rule R213). -/
inductive DivOp where
  | div
  | mod
  deriving DecidableEq, Repr

/-- The five fatal conditions with the information each records (`60_exceptions.md` rule R210). An instruction that
meets one records it in `RUN` (a next state); a step of a core whose `RUN` is already Faulted answers it as the
outcome, which is how it reaches the caller as a typed result (`40_engine_cycle.md` rule R120, log 34).
All five are safe: the machine stops where the spec stops. -/
inductive Fault where
  /-- Code 1: an address outside 0 to 255. Raised by the three fetch reads; the stack kinds cannot happen
  (`20_memory.md` rule R67). Safe. -/
  | memOutOfRange (addr : Int) (kind : AccessKind)
  /-- Code 2: an operand byte of 8 or more used as a register index. Raised by every instruction with a register
  operand it uses (`60_exceptions.md` rule R212). Safe. -/
  | regOutOfRange (operand : Byte)
  /-- Code 3: a zero divisor. Raised by DIV and MOD (`60_exceptions.md` rule R213). Safe. -/
  | divideByZero (op : DivOp)
  /-- Code 4: an unrecognized opcode and its address. Raised by the engine under the policy `fatal`
  (`60_exceptions.md` rule R214). Safe. -/
  | unsupportedOpcode (ir : Byte) (pc : Nat)
  /-- Code 5: the would-be stack pointer, -1 or 256. Raised by PUSH, POP, CALL and RET
  (`60_exceptions.md` rule R217). Safe. -/
  | stackPointerOutOfRange (wouldBe : Int)
  deriving DecidableEq, Repr

/-- The numeric code of a cause (`60_exceptions.md` rule R210, decision D12, log 12). -/
def Fault.code : Fault → Nat
  | .memOutOfRange _ _ => 1
  | .regOutOfRange _ => 2
  | .divideByZero _ => 3
  | .unsupportedOpcode _ _ => 4
  | .stackPointerOutOfRange _ => 5

/-- Why the model gives no next state for something that is asked of it. -/
inductive Refusal where
  /-- An instruction without a meaning yet. Raised by no arm: all 23 have their meaning. Safe. -/
  | notModelled (mnemonic : String)
  /-- A program image of more than 256 bytes. Raised by the host's Load, never by a step: a load error, the core does
  not start (`70_reset_and_hazards.md` rule R243). Safe. -/
  | imageTooLong (length : Nat)
  deriving DecidableEq, Repr

/-- The engine state `RUN` (`10_state.md` rule R34). -/
inductive RunState where
  | running
  | halted
  | faulted (cause : Fault)
  deriving DecidableEq, Repr

/-- The register file: eight words (`10_state.md` rule R20). -/
structure RegFile where
  r0 : Word
  r1 : Word
  r2 : Word
  r3 : Word
  r4 : Word
  r5 : Word
  r6 : Word
  r7 : Word
  deriving DecidableEq, Repr

/-- The memory as a list of cells: addresses strictly rising, no cell that holds 0, since an unlisted cell reads as 0
(`10_state.md` rules R36 and R40, log 27). -/
abbrev Memory := List Host.Cell

/-- Everything the spec gives the machine (`10_state.md`), the two event logs of its environment, and the model
argument `UNSUPPORTED_POLICY`. -/
structure State where
  /-- `x[0]` to `x[7]` (rule R20). -/
  regs : RegFile
  /-- The program counter, an integer that never wraps (rules R26 and R27). -/
  pc : Nat
  /-- The flags: bit 2 Less, bit 1 Greater, bit 0 Equal (rule R30). -/
  fl : BitVec 3
  /-- The engine state `RUN` (rule R34). -/
  run : RunState
  /-- `mem[0..255]` (rule R36). -/
  mem : Memory
  /-- `OUT`: the bytes emitted since reset, oldest first (rule R37). -/
  out : List Byte
  /-- The skip reports `(ir, pc)` since reset, oldest first (`60_exceptions.md` rule R225, log 26). -/
  skipReports : List (Byte × Nat)
  /-- `UNSUPPORTED_POLICY` (`00_scope.md` rule R12, log 5). No step changes it. -/
  unsupportedPolicy : UnsupportedPolicy
  deriving DecidableEq, Repr

/-- The register file after reset (`10_state.md` rule R40; the zeros are decision D8, log 8). -/
def RegFile.reset : RegFile :=
  { r0 := 0, r1 := 0, r2 := 0, r3 := 0, r4 := 0, r5 := 0, r6 := 0, r7 := Config.spReset }

/-- The state after `Reset` (`10_state.md` rule R40; `FL = 0` is decision D9, log 9). -/
def State.reset : State :=
  { regs := RegFile.reset
    pc := Config.pcReset
    fl := 0
    run := .running
    mem := []
    out := []
    skipReports := []
    unsupportedPolicy := Config.defaultPolicy }

end Sys2Proof.Machine
end

