-- ==== Sys2Proof/Machine/Ops.lean ====
section
/-!
DEFINITION. The operations every instruction is built from: registers, memory (`20_memory.md`), the checked stack
pointer (`10_state.md` rule R25), the output (`10_state.md` rule R37), raising a fault (`60_exceptions.md` rule R216) and
the engine's work around a handler (`40_engine_cycle.md` rule R110, steps 1, 3, 4 and 6).
-/

namespace Sys2Proof.Machine

/-! ### Registers -/

/-- `get(index)` (`00_scope.md` rule R18). -/
def RegFile.get (f : RegFile) : Reg → Word
  | .r0 => f.r0
  | .r1 => f.r1
  | .r2 => f.r2
  | .r3 => f.r3
  | .r4 => f.r4
  | .r5 => f.r5
  | .r6 => f.r6
  | .r7 => f.r7

/-- `set(index, word)` (`00_scope.md` rule R18). -/
def RegFile.set (f : RegFile) (r : Reg) (v : Word) : RegFile :=
  match r with
  | .r0 => { f with r0 := v }
  | .r1 => { f with r1 := v }
  | .r2 => { f with r2 := v }
  | .r3 => { f with r3 := v }
  | .r4 => { f with r4 := v }
  | .r5 => { f with r5 := v }
  | .r6 => { f with r6 := v }
  | .r7 => { f with r7 := v }

/-- `x[r]` (`00_scope.md` rule R19). -/
def State.reg (s : State) (r : Reg) : Word := s.regs.get r

/-- `x[r] <- v` (`00_scope.md` rule R19). -/
def State.setReg (s : State) (r : Reg) (v : Word) : State := { s with regs := s.regs.set r v }

/-- `pc <- t` (`00_scope.md` rule R19). -/
def State.setPc (s : State) (t : Nat) : State := { s with pc := t }

/-- `FL <- v` (`00_scope.md` rule R19). -/
def State.setFl (s : State) (v : BitVec 3) : State := { s with fl := v }

/-- `RUN <- r` (`10_state.md` rule R34). -/
def State.setRun (s : State) (r : RunState) : State := { s with run := r }

/-! ### Memory -/

/-- The contents of a cell; a cell that is not listed reads as 0 (`10_state.md` rule R40). -/
def Memory.get : Memory → Nat → Byte
  | [], _ => 0
  | (k, v) :: rest, a => if k = a then v else Memory.get rest a

/-- Store a byte in a cell, keeping the list in its canonical form: storing 0 removes the entry. -/
def Memory.set : Memory → Nat → Byte → Memory
  | [], a, v => if v = 0 then [] else [(a, v)]
  | (k, w) :: rest, a, v =>
    if a < k then (if v = 0 then (k, w) :: rest else (a, v) :: (k, w) :: rest)
    else if a = k then (if v = 0 then rest else (a, v) :: rest)
    else (k, w) :: Memory.set rest a v

/-- The canonical form: addresses strictly rising, every one of them in the memory, no entry that holds 0. -/
abbrev Memory.wf (m : Memory) : Prop :=
  m.Pairwise (fun c d => c.1 < d.1) ∧ ∀ c ∈ m, c.2 ≠ 0 ∧ c.1 < Config.memSize

/-- The contents of cell `a` of the state. -/
def State.byteAt (s : State) (a : Nat) : Byte := s.mem.get a

/-- Is an address one of the 256 cells (`20_memory.md` rule R50)? -/
def inMemory (addr : Int) : Bool := decide (0 ≤ addr ∧ addr < Config.memSize)

/-- `MemRead(addr, 1)` for an integer of any value (`20_memory.md` rule R51). -/
def memRead (s : State) (addr : Int) (kind : AccessKind) : Except Fault Byte :=
  if inMemory addr then .ok (s.byteAt addr.toNat) else .error (.memOutOfRange addr kind)

/-- `MemWrite(addr, 1, v)` for an integer of any value (`20_memory.md` rule R52). -/
def memWrite (s : State) (addr : Int) (v : Byte) (kind : AccessKind) : Except Fault State :=
  if inMemory addr then .ok { s with mem := s.mem.set addr.toNat v } else .error (.memOutOfRange addr kind)

/-! ### The stack pointer -/

/-- The check of the implicit stack-pointer arithmetic: the sum is an unbounded integer, and outside 0 to 255 it is
StackPointerOutOfRange (`10_state.md` rule R25, `60_exceptions.md` rule R217). -/
def checkedSp (wouldBe : Int) : Except Fault Word :=
  if 0 ≤ wouldBe ∧ wouldBe ≤ 255 then .ok (BitVec.ofInt 8 wouldBe) else .error (.stackPointerOutOfRange wouldBe)

/-- `nsp <- x[7] - 1`, checked, then `x[7] <- nsp` (`42_stack.md` rule R140). -/
def stackGrow (s : State) : Except Fault State :=
  (checkedSp ((s.reg .sp).toNat - 1)).map fun nsp => s.setReg .sp nsp

/-- `nsp <- x[7] + 1`, checked, then `x[7] <- nsp` (`42_stack.md` rule R141). -/
def stackShrink (s : State) : Except Fault State :=
  (checkedSp ((s.reg .sp).toNat + 1)).map fun nsp => s.setReg .sp nsp

/-- `MemWrite(x[7], 1, v)` (`42_stack.md` rule R140, `43_control_transfer.md` rule R150). -/
def stackWrite (s : State) (v : Byte) : Except Fault State := memWrite s (s.reg .sp).toNat v .stackWrite

/-- `MemRead(x[7], 1)` (`42_stack.md` rule R141, `43_control_transfer.md` rule R151). -/
def stackRead (s : State) : Except Fault Byte := memRead s (s.reg .sp).toNat .stackRead

/-! ### Output -/

/-- `Emit(v)`: append a byte to `OUT` (`10_state.md` rule R37). -/
def State.emit (s : State) (v : Byte) : State := { s with out := s.out ++ [v] }

/-! ### Raising a fault -/

/-- `raise <Fault>(info)`, applied to the state before the step: every write of the step is discarded, only `RUN`
changes, control goes nowhere (`60_exceptions.md` rule R216). There is no return from it but `Reset` (rule R218). -/
def State.raise (s : State) (f : Fault) : State := s.setRun (.faulted f)

/-! ### The engine around a handler -/

/-- A handler of the dispatch table with its operands: the state it leaves, or the fault it raises. The writes before
a raise are lost with the state that held them. -/
abbrev Handler := State → Except Fault State

/-- Step 6: advance `pc` past the instruction unless its handler has set it, from the bits of the opcode byte alone; the
sum is not reduced (`40_engine_cycle.md` rules R112 and R116). -/
def advance (ir : Byte) (s : State) : State :=
  if pcIsSetByHandler ir then s else s.setPc (s.pc + operandCount ir + 1)

/-- Steps 5 and 6 for the opcode `ir`: invoke the handler, then advance; a raise leaves the state of before
(`40_engine_cycle.md` rules R110, R115 and R119). -/
def complete (ir : Byte) (h : Handler) (s : State) : Host.Outcome State Fault Refusal :=
  match h s with
  | .ok t => .next (advance ir t)
  | .error f => .next (s.raise f)

/-- Steps 1 and 3: the opcode byte and both operand bytes, always all three, in this order, each range-checked
(`40_engine_cycle.md` rules R111 and R113). -/
def fetch (s : State) : Except Fault (Byte × Byte × Byte) := do
  let ir ← memRead s s.pc .fetchOpcode
  let opA ← memRead s (s.pc + 1) .fetchOperandA
  let opB ← memRead s (s.pc + 2) .fetchOperandB
  .ok (ir, opA, opB)

/-- Step 4 for an opcode the lookup does not know: the fault, or under `skip` the report and an advance of exactly 1
(`40_engine_cycle.md` rule R114). -/
def unsupported (ir : Byte) (s : State) : State :=
  match s.unsupportedPolicy with
  | .fatal => s.raise (.unsupportedOpcode ir s.pc)
  | .skip => { s with skipReports := s.skipReports ++ [(ir, s.pc)], pc := s.pc + 1 }

/-! ### Placing bytes in memory -/

/-- Store bytes at ascending addresses from `a`; a byte that would lie past the last cell is left out. -/
def Memory.place (m : Memory) (a : Nat) : List Byte → Memory
  | [] => m
  | b :: rest => (if a < Config.memSize then m.set a b else m).place (a + 1) rest

end Sys2Proof.Machine
end

