-- ==== Sys2Proof/Machine/Operands.lean ====
section
/-!
DEFINITION. The one operand form that needs a check: an operand byte used as a register index (`10_state.md` rule R22,
`30_encoding.md` rule R84). The other form, the immediate of LDI, is the byte itself.
-/

namespace Sys2Proof.Machine

/-- `RegIndex(b)`: the register a byte names, or RegOutOfRange with the byte (`00_scope.md` rule R19). -/
def regIndex (b : Byte) : Except Fault Reg :=
  match Reg.ofByte? b with
  | some r => .ok r
  | none => .error (.regOutOfRange b)

end Sys2Proof.Machine
end

