-- ==== Sys2Proof/Machine/Alu.lean ====
section
/-!
DEFINITION. The twelve instructions that write a register from the ALU (`44_alu.md`). Each operation computes the exact
integer result on the unsigned operands and reduces it modulo 256 (rule R171).
-/

namespace Sys2Proof.Machine

/-- The operations the ALU handler is told apart by: it "receives the opcode itself as the ALU selector"
(`44_alu.md` rule R170). -/
inductive BinaryOp where
  | add | sub | mul | div | mod | and | or | xor | shl | shr
  deriving DecidableEq, Repr

/-- The unary operations of the ALU handler (`44_alu.md` rule R170). -/
inductive UnaryOp where
  | inc | dec
  deriving DecidableEq, Repr

/-- The reduction modulo 256 of an exact integer result (`44_alu.md` rule R171). -/
def wrap (r : Int) : Word := BitVec.ofInt 8 r

/-- `apply(op, a, b)` (`44_alu.md` rules R173 to R182). The exact result is computed on integers and wrapped; the
shift count is the whole value of `b` (rule R181, decision D17, log 17). -/
def applyBinary (op : BinaryOp) (a b : Word) : Except Fault Word :=
  match op with
  | .add => .ok (wrap ((a.toNat : Int) + b.toNat))
  | .sub => .ok (wrap ((a.toNat : Int) - b.toNat))
  | .mul => .ok (wrap ((a.toNat : Int) * b.toNat))
  | .div => if b.toNat = 0 then .error (.divideByZero .div) else .ok (wrap (a.toNat / b.toNat : Nat))
  | .mod => if b.toNat = 0 then .error (.divideByZero .mod) else .ok (wrap (a.toNat % b.toNat : Nat))
  | .and => .ok (wrap (a.toNat &&& b.toNat : Nat))
  | .or => .ok (wrap (a.toNat ||| b.toNat : Nat))
  | .xor => .ok (wrap (a.toNat ^^^ b.toNat : Nat))
  | .shl => .ok (wrap (a.toNat <<< b.toNat : Nat))
  | .shr => .ok (wrap (a.toNat >>> b.toNat : Nat))

/-- `apply(op, a, -)` (`44_alu.md` rules R183 and R184, decision D27, log 24). -/
def applyUnary (op : UnaryOp) (a : Word) : Word :=
  match op with
  | .inc => wrap ((a.toNat : Int) + 1)
  | .dec => wrap ((a.toNat : Int) - 1)

/-- `ALU_binary`: both indices are checked and both registers read before the write (`44_alu.md` rules R170, R172). -/
def aluBinary (op : BinaryOp) (opA opB : Byte) : Handler := fun s => do
  let i ← regIndex opA
  let j ← regIndex opB
  let r ← applyBinary op (s.reg i) (s.reg j)
  .ok (s.setReg i r)

/-- `ALU_unary`: `op_b` is not used (`44_alu.md` rule R170). -/
def aluUnary (op : UnaryOp) (opA : Byte) : Handler := fun s => do
  let i ← regIndex opA
  .ok (s.setReg i (applyUnary op (s.reg i)))

/-- ADD, whole (`44_alu.md` rule R173). -/
def execAdd (opA opB : Byte) (s : State) : Host.Outcome State Fault Refusal :=
  complete (opc .add) (aluBinary .add opA opB) s

/-- SUB, whole (`44_alu.md` rule R174). -/
def execSub (opA opB : Byte) (s : State) : Host.Outcome State Fault Refusal :=
  complete (opc .sub) (aluBinary .sub opA opB) s

/-- MUL, whole (`44_alu.md` rule R175). -/
def execMul (opA opB : Byte) (s : State) : Host.Outcome State Fault Refusal :=
  complete (opc .mul) (aluBinary .mul opA opB) s

/-- DIV, whole (`44_alu.md` rule R176, decision D16, log 16). -/
def execDiv (opA opB : Byte) (s : State) : Host.Outcome State Fault Refusal :=
  complete (opc .div) (aluBinary .div opA opB) s

/-- MOD, whole (`44_alu.md` rule R177, decision D16, log 16). -/
def execMod (opA opB : Byte) (s : State) : Host.Outcome State Fault Refusal :=
  complete (opc .mod) (aluBinary .mod opA opB) s

/-- AND, whole (`44_alu.md` rule R178). -/
def execAnd (opA opB : Byte) (s : State) : Host.Outcome State Fault Refusal :=
  complete (opc .and) (aluBinary .and opA opB) s

/-- OR, whole (`44_alu.md` rule R179). -/
def execOr (opA opB : Byte) (s : State) : Host.Outcome State Fault Refusal :=
  complete (opc .or) (aluBinary .or opA opB) s

/-- XOR, whole (`44_alu.md` rule R180). -/
def execXor (opA opB : Byte) (s : State) : Host.Outcome State Fault Refusal :=
  complete (opc .xor) (aluBinary .xor opA opB) s

/-- SHL, whole (`44_alu.md` rule R181, decision D17, log 17). -/
def execShl (opA opB : Byte) (s : State) : Host.Outcome State Fault Refusal :=
  complete (opc .shl) (aluBinary .shl opA opB) s

/-- SHR, whole (`44_alu.md` rule R182, decision D17, log 17). -/
def execShr (opA opB : Byte) (s : State) : Host.Outcome State Fault Refusal :=
  complete (opc .shr) (aluBinary .shr opA opB) s

/-- INC, whole (`44_alu.md` rule R183). -/
def execInc (opA : Byte) (s : State) : Host.Outcome State Fault Refusal := complete (opc .inc) (aluUnary .inc opA) s

/-- DEC, whole (`44_alu.md` rule R184). -/
def execDec (opA : Byte) (s : State) : Host.Outcome State Fault Refusal := complete (opc .dec) (aluUnary .dec opA) s

end Sys2Proof.Machine
end

