-- ==== Sys2Proof/Machine/Flags.lean ====
section
/-!
DEFINITION. The flags register: its bits (`10_state.md` rule R30) and the one computation that sets it, the compare
(`45_compare.md` rules R200 and R201). No other instruction computes a flag (`10_state.md` rule R31).
-/

namespace Sys2Proof.Machine

/-- `FL.E`, bit 0 (`10_state.md` rule R30). -/
def State.flE (s : State) : Bool := s.fl.getLsbD 0

/-- `FL.G`, bit 1 (`10_state.md` rule R30). -/
def State.flG (s : State) : Bool := s.fl.getLsbD 1

/-- `FL.L`, bit 2 (`10_state.md` rule R30). -/
def State.flL (s : State) : Bool := s.fl.getLsbD 2

/-- `(less << 2) | (greater << 1) | equal` (`45_compare.md` rule R200). -/
def packFlags (less greater equal : Bool) : BitVec 3 :=
  BitVec.ofNat 3 ((less.toNat <<< 2) ||| (greater.toNat <<< 1) ||| equal.toNat)

/-- `compare(a, b) -> (less, greater, equal)`, unsigned (`45_compare.md` rule R201, decision D18, log 18). -/
def compare (a b : Word) : Bool × Bool × Bool :=
  (decide (a.toNat < b.toNat), decide (a.toNat > b.toNat), decide (a.toNat = b.toNat))

/-- The value CMP gives `FL`: all three bits written (`45_compare.md` rule R200). -/
def compareFlags (a b : Word) : BitVec 3 :=
  match compare a b with
  | (less, greater, equal) => packFlags less greater equal

/-- The four values `FL` can hold in a run (`10_state.md` rule R32). -/
abbrev legalFlags (v : BitVec 3) : Prop := v = 0b000#3 ∨ v = 0b001#3 ∨ v = 0b010#3 ∨ v = 0b100#3

end Sys2Proof.Machine
end

