-- ==== Sys2Proof/Machine/Compare.lean ====
section
/-!
DEFINITION. CMP (`45_compare.md`), the only instruction that writes the flags.
-/

namespace Sys2Proof.Machine

/-- CMP: both indices checked, both registers read, all three flag bits written (`45_compare.md` rule R200). -/
def handleCmp (opA opB : Byte) : Handler := fun s => do
  let i ← regIndex opA
  let j ← regIndex opB
  .ok (s.setFl (compareFlags (s.reg i) (s.reg j)))

/-- CMP, whole (`45_compare.md` rule R200). -/
def execCmp (opA opB : Byte) (s : State) : Host.Outcome State Fault Refusal :=
  complete (opc .cmp) (handleCmp opA opB) s

end Sys2Proof.Machine
end

