-- ==== Sys2Proof/Machine/Control.lean ====
section
/-!
DEFINITION. CALL, RET, JMP, JEQ and JNE (`43_control_transfer.md`). Their handlers write `pc` on every path. While a
handler runs, `pc` is the address of its own opcode byte (`10_state.md` rule R26). A target is a byte, zero-extended
(rule R155).
-/

namespace Sys2Proof.Machine

/-- CALL: push `pc + 2`, then go to `x[a]`, read after the stack pointer moved (`43_control_transfer.md` rule R150). An
instruction executes only at `pc <= 253`, so the sum fits the byte (log 28). -/
def handleCall (opA : Byte) : Handler := fun s => do
  let i ← regIndex opA
  let s ← stackGrow s
  let s ← stackWrite s (BitVec.ofNat 8 (s.pc + 2))
  .ok (s.setPc (s.reg i).toNat)

/-- RET: go to the byte at the stack pointer, which moves up (`43_control_transfer.md` rule R151). -/
def handleRet : Handler := fun s => do
  let t ← stackRead s
  let s ← stackShrink s
  .ok (s.setPc t.toNat)

/-- The taken path of a jump: `pc <- x[RegIndex(op_a)]` (`43_control_transfer.md` rule R152). -/
def jumpTo (opA : Byte) : Handler := fun s => do
  let i ← regIndex opA
  .ok (s.setPc (s.reg i).toNat)

/-- A conditional jump: the operand is read and checked only when the jump is taken, else `pc <- pc + 2`
(`43_control_transfer.md` rules R153 and R154, decision D28, log 25). -/
def jumpIf (taken : Bool) (opA : Byte) : Handler := fun s =>
  if taken then jumpTo opA s else .ok (s.setPc (s.pc + 2))

/-- JMP (`43_control_transfer.md` rule R152). -/
def handleJmp (opA : Byte) : Handler := jumpTo opA

/-- JEQ: taken when `FL.E = 1` (`43_control_transfer.md` rule R153). -/
def handleJeq (opA : Byte) : Handler := fun s => jumpIf s.flE opA s

/-- JNE: taken when `FL.E = 0` (`43_control_transfer.md` rule R154). -/
def handleJne (opA : Byte) : Handler := fun s => jumpIf (!s.flE) opA s

/-- CALL, whole (`43_control_transfer.md` rule R150). -/
def execCall (opA : Byte) (s : State) : Host.Outcome State Fault Refusal := complete (opc .call) (handleCall opA) s

/-- RET, whole (`43_control_transfer.md` rule R151). -/
def execRet (s : State) : Host.Outcome State Fault Refusal := complete (opc .ret) handleRet s

/-- JMP, whole (`43_control_transfer.md` rule R152). -/
def execJmp (opA : Byte) (s : State) : Host.Outcome State Fault Refusal := complete (opc .jmp) (handleJmp opA) s

/-- JEQ, whole (`43_control_transfer.md` rule R153). -/
def execJeq (opA : Byte) (s : State) : Host.Outcome State Fault Refusal := complete (opc .jeq) (handleJeq opA) s

/-- JNE, whole (`43_control_transfer.md` rule R154). -/
def execJne (opA : Byte) (s : State) : Host.Outcome State Fault Refusal := complete (opc .jne) (handleJne opA) s

end Sys2Proof.Machine
end

