-- ==== Sys2Proof/Machine/Stack.lean ====
section
/-!
DEFINITION. PUSH and POP (`42_stack.md`). The statements of a handler run in the order written over one register file, which
decides the forms that name register 7 (rule R142, decision D15, log 15).
-/

namespace Sys2Proof.Machine

/-- PUSH: the stack pointer moves first, then `x[a]` is read and stored (`42_stack.md` rule R140). -/
def handlePush (opA : Byte) : Handler := fun s => do
  let i ← regIndex opA
  let s ← stackGrow s
  stackWrite s (s.reg i)

/-- POP: `x[a]` is written first, then the stack pointer moves (`42_stack.md` rule R141). -/
def handlePop (opA : Byte) : Handler := fun s => do
  let i ← regIndex opA
  let v ← stackRead s
  stackShrink (s.setReg i v)

/-- PUSH, whole (`42_stack.md` rule R140). -/
def execPush (opA : Byte) (s : State) : Host.Outcome State Fault Refusal := complete (opc .push) (handlePush opA) s

/-- POP, whole (`42_stack.md` rule R141). -/
def execPop (opA : Byte) (s : State) : Host.Outcome State Fault Refusal := complete (opc .pop) (handlePop opA) s

end Sys2Proof.Machine
end

