-- ==== Sys2Proof/Machine/System.lean ====
section
/-!
DEFINITION. HLT, LDI and PRN (`41_system_and_move.md`).
-/

namespace Sys2Proof.Machine

/-- HLT: `RUN <- Halted`; step 6 then advances `pc` by 1 (`41_system_and_move.md` rule R130). -/
def handleHlt : Handler := fun s => .ok (s.setRun .halted)

/-- LDI: `x[a]` becomes the immediate byte, which is never checked (`41_system_and_move.md` rule R131). -/
def handleLdi (opA imm : Byte) : Handler := fun s => do
  let i ← regIndex opA
  .ok (s.setReg i imm)

/-- PRN: emit `x[a]` (`41_system_and_move.md` rule R132). -/
def handlePrn (opA : Byte) : Handler := fun s => do
  let i ← regIndex opA
  .ok (s.emit (s.reg i))

/-- HLT, whole (`41_system_and_move.md` rule R130). -/
def execHlt (s : State) : Host.Outcome State Fault Refusal := complete (opc .hlt) handleHlt s

/-- LDI, whole (`41_system_and_move.md` rule R131). -/
def execLdi (opA imm : Byte) (s : State) : Host.Outcome State Fault Refusal :=
  complete (opc .ldi) (handleLdi opA imm) s

/-- PRN, whole (`41_system_and_move.md` rule R132). -/
def execPrn (opA : Byte) (s : State) : Host.Outcome State Fault Refusal := complete (opc .prn) (handlePrn opA) s

end Sys2Proof.Machine
end

