-- ==== Sys2Proof/Machine/Cycle.lean ====
section
/-!
DEFINITION. One pass of the engine's loop while `RUN = Running` (`40_engine_cycle.md` rule R110).
-/

namespace Sys2Proof.Machine

/-- Steps 1 to 6 of the loop: fetch three bytes, look the opcode up, run the instruction (`40_engine_cycle.md`
rule R110). The lookup comes after the operand fetch, so a fetch fault wins over an unsupported opcode (rule R113 (b),
`60_exceptions.md` rule R215). -/
def cycle (s : State) : Host.Outcome State Fault Refusal :=
  match fetch s with
  | .error f => .next (s.raise f)
  | .ok (ir, opA, opB) =>
    match decode [ir, opA, opB] with
    | .ok (i, _) => exec i s
    | .error _ => .next (unsupported ir s)

/-- What `step` answers in each engine state (`40_engine_cycle.md` rules R110, R117 and R120, `10_state.md` rules R34 and
R42): a running core does one pass; a halted core stays as it is; a faulted core executes nothing and hands its fatal
condition to the caller (log 34). -/
def stepIn (r : RunState) (s : State) : Host.Outcome State Fault Refusal :=
  match r with
  | .running => cycle s
  | .halted => .next s
  | .faulted f => .fault f

/-- The state in which the very next step runs the instruction whose bytes are given: the bytes lie at `pc`, and the
two conditions for a fetch hold, `RUN = Running` and three cells from `pc` on (`40_engine_cycle.md` rules R110 and R113,
log 31). -/
def placedAtFetch (bytes : List Byte) (s : State) : State :=
  let at' := if s.pc ≤ 253 then s.pc else Config.pcReset
  { s with run := .running, pc := at', mem := s.mem.place at' bytes }

end Sys2Proof.Machine
end

