-- ==== Sys2Proof/Machine/Step.lean ====
section
/-!
DEFINITION. The step of the machine, and the state whose next step runs a given instruction.
-/

namespace Sys2Proof.Machine

/-- One pass of the loop of `40_engine_cycle.md` rule R110, or what is left to do in a terminal state. -/
def step (s : State) : Host.Outcome State Fault Refusal := stepIn s.run s

/-- `s` with an instruction's bytes stored where the next step fetches them (log 31). -/
def State.withFetchWord (s : State) (nbits w : Nat) : State := placedAtFetch (tableWordBytes nbits w) s

end Sys2Proof.Machine
end

