-- ==== Sys2Proof/Machine/Environment.lean ====
section
/-!
DEFINITION. The events that cross the boundary of the core outside a step (`00_scope.md` rule R16): Reset, Load, Observe and
Result. The host applies them; no step does (log 29). The other two events, Out and the skip report, are recorded in the
state by the step that makes them.
-/

namespace Sys2Proof.Machine

/-- `Reset`, at any time between steps: every piece of state at its reset value (`70_reset_and_hazards.md` rule R240). The
model argument `UNSUPPORTED_POLICY` is no state of the hardware and stays (log 21). -/
def State.applyReset (s : State) : State := { State.reset with unsupportedPolicy := s.unsupportedPolicy }

/-- `Load(bytes)`: byte `i` into cell `i`, nothing else changed; an image of more than 256 bytes is a load error
(`70_reset_and_hazards.md` rule R243, decision D20, log 20). -/
def State.load (s : State) (bytes : List Byte) : Host.Outcome State Fault Refusal :=
  if bytes.length ≤ Config.memSize then .next { s with mem := s.mem.place 0 bytes }
  else .refused (.imageTooLong bytes.length)

/-- What the tracer may read between two instructions (`60_exceptions.md` rule R227). -/
structure Observation where
  pc : Nat
  fl : BitVec 3
  /-- The cells at `pc`, `pc + 1` and `pc + 2`; `none` for one beyond the memory (log 30). -/
  cells : List (Option Byte)
  regs : RegFile
  deriving DecidableEq, Repr

/-- The cell at an address, if there is one. -/
def State.cell? (s : State) (a : Nat) : Option Byte := if inMemory a then some (s.byteAt a) else none

/-- `Observe`: reads, writes nothing (`60_exceptions.md` rule R227). -/
def State.observe (s : State) : Observation :=
  { pc := s.pc, fl := s.fl, cells := [s.cell? s.pc, s.cell? (s.pc + 1), s.cell? (s.pc + 2)], regs := s.regs }

/-- The `Result` of a run (`00_scope.md` rule R16, `40_engine_cycle.md` rule R120). -/
inductive Result where
  | halted
  | faulted (cause : Fault)
  deriving DecidableEq, Repr

/-- The result the host receives: none while the core runs (`40_engine_cycle.md` rule R120). -/
def State.result (s : State) : Option Result :=
  match s.run with
  | .running => none
  | .halted => some .halted
  | .faulted f => some (.faulted f)

end Sys2Proof.Machine
end

