-- ==== Sys2Proof/Safety.lean ====
section
/-!
DEFINITION. What claims about a run are stated in: the invariant of a run, its two ends, and the frame vocabulary.
-/

namespace Sys2Proof.Machine

/-- The information a recorded fault can hold when `pc` is the address of the instruction that raised it, and the policy
under which it was raised: the column "info recorded" of `60_exceptions.md` rule R210 and the reachable cases of rule R211. -/
def Fault.recordable (pc : Nat) (policy : UnsupportedPolicy) : Fault → Prop
  | .memOutOfRange a k =>
    a = 256 ∧ ((pc = 256 ∧ k = .fetchOpcode) ∨ (pc = 255 ∧ k = .fetchOperandA) ∨ (pc = 254 ∧ k = .fetchOperandB))
  | .regOutOfRange b => 8 ≤ b.toNat
  | .divideByZero _ => True
  | .unsupportedOpcode ir p => policy = .fatal ∧ p = pc ∧ lookup ir = none
  | .stackPointerOutOfRange v => v = -1 ∨ v = 256

/-- The invariant of a run: memory in canonical form inside its 256 cells, `pc` in 0 to 256 (`10_state.md` rule R27), `FL` one
of its four values (rule R32), and a recorded fault that one of the five conditions can have recorded
(`60_exceptions.md` rules R210 and R211). -/
structure State.Inv (s : State) : Prop where
  memory : s.mem.wf
  pcRange : s.pc ≤ Config.memSize
  flags : legalFlags s.fl
  cause : ∀ f, s.run = .faulted f → f.recordable s.pc s.unsupportedPolicy

/-- A run has ended (`10_state.md` rule R34). -/
abbrev State.terminal (s : State) : Prop := s.run ≠ .running

/-- The normal end of a run; a faulted state is none (`60_exceptions.md` rule R218). -/
abbrev State.normalEnd (s : State) : Prop := s.run = .halted

/-- No fatal condition has been met so far: what a safe run keeps. -/
abbrev State.safe (s : State) : Prop := ∀ f, s.run ≠ .faulted f

/-- Every cell reads as before. -/
def SameMemory (s t : State) : Prop := ∀ a, t.byteAt a = s.byteAt a

/-- Every cell but `a` reads as before. -/
def SameMemoryBut (a : Nat) (s t : State) : Prop := ∀ c, c ≠ a → t.byteAt c = s.byteAt c

/-- Every register outside the list holds what it held. -/
def SameRegsBut (ds : List Reg) (s t : State) : Prop := ∀ r, r ∉ ds → t.reg r = s.reg r

/-- The output, the skip reports and the model argument are as before. -/
def SameEvents (s t : State) : Prop :=
  t.out = s.out ∧ t.skipReports = s.skipReports ∧ t.unsupportedPolicy = s.unsupportedPolicy

/-- A register-to-register instruction of `n` bytes has done its work: register `d` holds `v`, `pc` moved past the
instruction, and nothing else changed: no other register, no flag, no cell, no output, not the engine state. -/
structure WroteRegister (d : Reg) (v n : Nat) (s t : State) : Prop where
  value : (t.reg d).toNat = v
  regs : SameRegsBut [d] s t
  pc : t.pc = s.pc + n
  fl : t.fl = s.fl
  run : t.run = s.run
  memory : SameMemory s t
  events : SameEvents s t

/-- Only `pc` changed. -/
structure OnlyPc (target : Nat) (s t : State) : Prop where
  regs : SameRegsBut [] s t
  pc : t.pc = target
  fl : t.fl = s.fl
  run : t.run = s.run
  memory : SameMemory s t
  events : SameEvents s t

/-- A stack instruction has stored byte `v` in cell `a` and left the stack pointer there; nothing else changed but `pc`. -/
structure PushedByte (a : Nat) (v : Byte) (target : Nat) (s t : State) : Prop where
  sp : (t.reg .sp).toNat = a
  stored : t.byteAt a = v
  memory : SameMemoryBut a s t
  regs : SameRegsBut [.sp] s t
  pc : t.pc = target
  fl : t.fl = s.fl
  run : t.run = s.run
  events : SameEvents s t

/-- The operand bytes an instruction uses as register indices in a state, in the order they are tested: JEQ and JNE use
theirs only when the jump is taken (`60_exceptions.md` rule R212). -/
def Instr.usedRegisterBytes (i : Instr) (s : State) : List Byte :=
  match i with
  | .jeq a => if s.flE then [a] else []
  | .jne a => if s.flE then [] else [a]
  | .hlt | .ret => []
  | .ldi a _ => [a]
  | .prn a | .push a | .pop a | .call a | .jmp a | .inc a | .dec a => [a]
  | .add a b | .sub a b | .mul a b | .div a b | .mod a b => [a, b]
  | .and a b | .or a b | .xor a b | .shl a b | .shr a b | .cmp a b => [a, b]

end Sys2Proof.Machine
end

