-- ==== Sys2Proof/Certificates/Slice0/Obligations.lean ====
section
/-!
DEFINITION. The statements for the provers. Each docstring names the rule of `spec/` a statement formalises, or, where the
statement rests on one of the spec's own decisions (`92_eei_decisions.md` D n), on an inference of the spec or on a choice
of the model, that decision, inference or log entry.
-/

open Sys2Proof Sys2Proof.Machine

/-! ## Encoding -/

/-- For every instruction, with every operand byte, decoding its encoding followed by any bytes gives the instruction and
those bytes back. Rests on `30_encoding.md` sections 1 to 3; the low nibbles are D2 (log 2). -/
def Obligations.DecodeOfEncodeIsTheInstruction : Prop :=
  ∀ (i : Instr) (rest : List Byte), decode (encode i ++ rest) = .ok (i, rest)

/-- Whatever bytes decode to an instruction are its encoding followed by the bytes that are left: each byte sequence has
one meaning, and no bit of it is dropped. Rests on `30_encoding.md` sections 1 to 3 (D2, log 2). -/
def Obligations.EncodeOfDecodedIsTheBytes : Prop :=
  ∀ (bs rest : List Byte) (i : Instr), decode bs = .ok (i, rest) → encode i ++ rest = bs

/-- The length of an instruction, its class and whether its handler sets `pc` are bits 7:6, 5 and 4 of its first byte,
with the values of the class table. Rests on `30_encoding.md` section 3 (bit 5 of CMP is D3, log 3). -/
def Obligations.OpcodeBitsGiveLengthAndClass : Prop :=
  ∀ (i : Instr), ∃ ir tail, encode i = ir :: tail ∧
    (encode i).length = 1 + operandCount ir ∧
    (aluClass ir = true ↔ i.mnemonic ∈ [.add, .sub, .mul, .div, .mod, .and, .or, .xor, .shl, .shr, .inc, .dec, .cmp]) ∧
    (pcIsSetByHandler ir = true ↔ i.mnemonic ∈ [.call, .ret, .jmp, .jeq, .jne])

/-- Exactly 23 of the 256 byte values are opcodes, and none of the 64 values with bits 7:6 = 11 is one. Rests on
`30_encoding.md` section 4 (D2, log 2). -/
def Obligations.OtherBytesAreUnrecognized : Prop :=
  (List.range 256).countP (fun n => (lookup (BitVec.ofNat 8 n)).isNone) = 233 ∧
  ∀ ir : Byte, operandCount ir = 3 → lookup ir = none

/-- Words written out from the binary column of the opcode table and the format table decode to the instructions they
stand for. Rests on `30_encoding.md` rows of the opcode map (D2, log 2). A sanity statement. -/
def Obligations.KnownWordsDecode : Prop :=
  decode [0b00000001#8] = .ok (.hlt, []) ∧
  decode [0b10000010#8, 0b00000011#8, 0b00101010#8] = .ok (.ldi 3 42, []) ∧
  decode [0b01000101#8, 0b00000111#8] = .ok (.push 7, []) ∧
  decode [0b01010000#8, 0b00000001#8] = .ok (.call 1, []) ∧
  decode [0b10100001#8, 0b00000000#8, 0b00000001#8] = .ok (.sub 0 1, []) ∧
  decode [0b10100111#8, 0b00000010#8, 0b00000101#8] = .ok (.cmp 2 5, []) ∧
  decode [0b00000000#8] = .error (.unrecognized 0)

/-- Of the three bytes a fetch reads, the ones past the instruction's length do not decide what it is. Rests on
`30_encoding.md` section 1. -/
def Obligations.BytesPastTheLengthAreIgnored : Prop :=
  ∀ (ir a b a' b' : Byte) (i : Instr) (rest : List Byte), decode [ir, a, b] = .ok (i, rest) →
    (operandCount ir = 0 → ∃ rest', decode [ir, a', b'] = .ok (i, rest')) ∧
    (operandCount ir = 1 → ∃ rest', decode [ir, a, b'] = .ok (i, rest'))

/-- A byte used as a register index names the register whose number it is when it is 7 or less, and is the fault
RegOutOfRange with that byte when it is 8 or more. Rests on `10_state.md` section 1 (which bytes are checked: D26, log 23). -/
def Obligations.RegisterByteNamesOrFaults : Prop :=
  ∀ b : Byte,
    (b.toNat ≤ 7 → ∃ r, regIndex b = .ok r ∧ r.toByte = b) ∧
    (8 ≤ b.toNat → regIndex b = .error (.regOutOfRange b))

/-! ## Registers and memory -/

/-- A register reads back what was written, register 0 like any other, and no other register and no other part of the state
changes. Rests on `10_state.md` section 1 (the width is D1, log 1). -/
def Obligations.RegisterReadsBackWhatWasWritten : Prop :=
  ∀ (s : State) (r : Reg) (v : Word),
    (s.setReg r v).reg r = v ∧ SameRegsBut [r] s (s.setReg r v) ∧ (s.setReg r v).pc = s.pc ∧
    (s.setReg r v).fl = s.fl ∧ (s.setReg r v).run = s.run ∧ SameMemory s (s.setReg r v) ∧ SameEvents s (s.setReg r v)

/-- Formalises `20_memory.md` rule R51: an address of any value is checked, never reduced; inside, the cell is returned
and nothing changes (a read gives a byte, no state). -/
def Obligations.MemReadChecksTheAddress : Prop :=
  ∀ (s : State) (addr : Int) (kind : AccessKind),
    (0 ≤ addr ∧ addr ≤ 255 → memRead s addr kind = .ok (s.byteAt addr.toNat)) ∧
    (addr < 0 ∨ 255 < addr → memRead s addr kind = .error (.memOutOfRange addr kind))

/-- Formalises `20_memory.md` rule R52: inside the memory exactly one cell is set, outside it nothing changes but the fault
raised. The premise is the invariant of the memory list (OneStepKeepsTheInvariant). -/
def Obligations.MemWriteSetsOneCell : Prop :=
  ∀ (s : State) (addr : Int) (v : Byte) (kind : AccessKind), s.mem.wf →
    (0 ≤ addr ∧ addr ≤ 255 → ∃ t, memWrite s addr v kind = .ok t ∧ t.byteAt addr.toNat = v ∧
      SameMemoryBut addr.toNat s t ∧ t.mem.wf ∧ t.regs = s.regs ∧ t.pc = s.pc ∧ t.fl = s.fl ∧ t.run = s.run ∧
      SameEvents s t) ∧
    (addr < 0 ∨ 255 < addr → memWrite s addr v kind = .error (.memOutOfRange addr kind))

/-! ## HLT, LDI, PRN -/

/-- HLT makes `RUN` Halted and advances `pc` by 1; registers, flags, memory and events are as before. Rests on
`41_system_and_move.md` (HLT) and D19 (log 19). -/
def Obligations.HltHaltsAndAdvances : Prop :=
  ∀ s : State, ∃ t, exec .hlt s = .next t ∧ t.run = .halted ∧ t.pc = s.pc + 1 ∧
    SameRegsBut [] s t ∧ t.fl = s.fl ∧ SameMemory s t ∧ SameEvents s t

/-- Formalises `41_system_and_move.md` rule R131: LDI writes its immediate byte, whatever it is, to the register, the stack
pointer included; a register byte of 8 or more faults. -/
def Obligations.LdiWritesTheImmediate : Prop :=
  ∀ (s : State) (a v : Byte), encode (.ldi a v) = [opc .ldi, a, v] ∧
    (∀ i, regIndex a = .ok i → ∃ t, exec (.ldi a v) s = .next t ∧ WroteRegister i v.toNat 3 s t) ∧
    (8 ≤ a.toNat → exec (.ldi a v) s = .next (s.raise (.regOutOfRange a)))

/-- PRN appends the register's byte to the output and changes nothing else but `pc`; a register byte of 8 or more faults and
emits nothing. Rests on `41_system_and_move.md` (PRN) and D22 (log 22). -/
def Obligations.PrnEmitsTheRegister : Prop :=
  ∀ (s : State) (a : Byte),
    (∀ i, regIndex a = .ok i → ∃ t, exec (.prn a) s = .next t ∧ t.out = s.out ++ [s.reg i] ∧ t.pc = s.pc + 2 ∧
      SameRegsBut [] s t ∧ t.fl = s.fl ∧ t.run = s.run ∧ SameMemory s t ∧ t.skipReports = s.skipReports ∧
      t.unsupportedPolicy = s.unsupportedPolicy) ∧
    (8 ≤ a.toNat → exec (.prn a) s = .next (s.raise (.regOutOfRange a)))

/-! ## PUSH, POP -/

/-- Formalises `42_stack.md` rule R140: the stack pointer is decremented, the register (read after that) is stored at it,
no other cell changes; stack pointer 0 and a bad register byte fault, the register byte first. The premise on memory is
the invariant of the memory list. -/
def Obligations.PushStoresBelowTheStackPointer : Prop :=
  ∀ (s : State) (a : Byte), s.mem.wf → encode (.push a) = [opc .push, a] ∧
    (∀ i, regIndex a = .ok i → 1 ≤ (s.reg .sp).toNat →
      ∃ t, exec (.push a) s = .next t ∧ PushedByte ((s.reg .sp).toNat - 1) (t.reg i) (s.pc + 2) s t) ∧
    (∀ i, regIndex a = .ok i → s.reg .sp = 0 → exec (.push a) s = .next (s.raise (.stackPointerOutOfRange (-1)))) ∧
    (8 ≤ a.toNat → exec (.push a) s = .next (s.raise (.regOutOfRange a)))

/-- POP into a register other than the stack pointer: the register becomes the cell at the stack pointer, which moves up by
one; no cell changes; stack pointer 255 and a bad register byte fault. Rests on `42_stack.md` (POP). -/
def Obligations.PopLoadsTheTopOfTheStack : Prop :=
  ∀ (s : State) (a : Byte),
    (∀ i, regIndex a = .ok i → i ≠ .sp → (s.reg .sp).toNat ≤ 254 →
      ∃ t, exec (.pop a) s = .next t ∧ t.reg i = s.byteAt (s.reg .sp).toNat ∧
        (t.reg .sp).toNat = (s.reg .sp).toNat + 1 ∧ SameRegsBut [i, .sp] s t ∧ t.pc = s.pc + 2 ∧ t.fl = s.fl ∧
        t.run = s.run ∧ SameMemory s t ∧ SameEvents s t) ∧
    (∀ i, regIndex a = .ok i → i ≠ .sp → (s.reg .sp).toNat = 255 →
      exec (.pop a) s = .next (s.raise (.stackPointerOutOfRange 256))) ∧
    (8 ≤ a.toNat → exec (.pop a) s = .next (s.raise (.regOutOfRange a)))

/-- The forms of PUSH and POP that name register 7: PUSH R7 stores the decremented pointer; POP R7 leaves the popped byte plus
1, or faults when that byte is 255, whatever the pointer was. The spec's own reading: `42_stack.md` rule R142 is marked
as derived, D15 (log 15). -/
def Obligations.PushAndPopOfTheStackPointer : Prop :=
  ∀ s : State, s.mem.wf →
    (1 ≤ (s.reg .sp).toNat → ∃ t, exec (.push 7) s = .next t ∧
      PushedByte ((s.reg .sp).toNat - 1) (s.reg .sp - 1) (s.pc + 2) s t) ∧
    ((s.byteAt (s.reg .sp).toNat).toNat ≤ 254 → ∃ t, exec (.pop 7) s = .next t ∧
      WroteRegister .sp ((s.byteAt (s.reg .sp).toNat).toNat + 1) 2 s t) ∧
    ((s.byteAt (s.reg .sp).toNat).toNat = 255 →
      exec (.pop 7) s = .next (s.raise (.stackPointerOutOfRange 256)))

/-- PUSH then POP of the same register restores the register and the stack pointer. Rests on `42_stack.md` (POP, the property of
the source), on D15 for register 7 (log 15); the premise on memory is the invariant of the memory list. -/
def Obligations.PushThenPopRestores : Prop :=
  ∀ (s : State) (a : Byte) (i : Reg), s.mem.wf → regIndex a = .ok i → 1 ≤ (s.reg .sp).toNat →
    ∃ t u, exec (.push a) s = .next t ∧ exec (.pop a) t = .next u ∧ SameRegsBut [] s u ∧ u.pc = s.pc + 4 ∧ u.fl = s.fl ∧
      u.run = s.run ∧ SameMemoryBut ((s.reg .sp).toNat - 1) s u ∧ SameEvents s u

/-! ## CALL, RET, JMP, JEQ, JNE -/

/-- Formalises `43_control_transfer.md` rule R150: CALL stores the address of the next instruction at the decremented stack
pointer and goes to the register, read after the decrement; the faults. An instruction executes only at `pc` up to 253; the
premise on memory is the invariant of the memory list. -/
def Obligations.CallPushesTheReturnAddress : Prop :=
  ∀ (s : State) (a : Byte), s.mem.wf → s.pc ≤ 253 → encode (.call a) = [opc .call, a] ∧
    (∀ i, regIndex a = .ok i → 1 ≤ (s.reg .sp).toNat →
      ∃ t v, exec (.call a) s = .next t ∧ v.toNat = s.pc + 2 ∧
        PushedByte ((s.reg .sp).toNat - 1) v (t.reg i).toNat s t) ∧
    (∀ i, regIndex a = .ok i → s.reg .sp = 0 → exec (.call a) s = .next (s.raise (.stackPointerOutOfRange (-1)))) ∧
    (8 ≤ a.toNat → exec (.call a) s = .next (s.raise (.regOutOfRange a)))

/-- Formalises `43_control_transfer.md` rule R151: RET goes to the byte at the stack pointer, which moves up by one; memory and
every other register are as before; stack pointer 255 faults and writes nothing. -/
def Obligations.RetGoesToTheTopOfTheStack : Prop :=
  encode .ret = [opc .ret] ∧
  ∀ s : State,
    ((s.reg .sp).toNat ≤ 254 → ∃ t, exec .ret s = .next t ∧ t.pc = (s.byteAt (s.reg .sp).toNat).toNat ∧
      (t.reg .sp).toNat = (s.reg .sp).toNat + 1 ∧ SameRegsBut [.sp] s t ∧ t.fl = s.fl ∧ t.run = s.run ∧
      SameMemory s t ∧ SameEvents s t) ∧
    ((s.reg .sp).toNat = 255 → exec .ret s = .next (s.raise (.stackPointerOutOfRange 256)))

/-- CALL followed by RET returns to the address after the CALL and restores the stack pointer and every other register.
Rests on `43_control_transfer.md` (CALL, the property of the source). -/
def Obligations.CallThenRetReturns : Prop :=
  ∀ (s : State) (a : Byte) (i : Reg), s.mem.wf → s.pc ≤ 253 → regIndex a = .ok i → 1 ≤ (s.reg .sp).toNat →
    ∃ t u, exec (.call a) s = .next t ∧ exec .ret t = .next u ∧ u.pc = s.pc + 2 ∧ SameRegsBut [] s u ∧ u.fl = s.fl ∧
      u.run = s.run ∧ SameMemoryBut ((s.reg .sp).toNat - 1) s u ∧ SameEvents s u

/-- Formalises `43_control_transfer.md` rule R152: JMP writes `pc` only, with the register's value; a bad register byte
faults. -/
def Obligations.JmpGoesToTheRegister : Prop :=
  ∀ (s : State) (a : Byte), encode (.jmp a) = [opc .jmp, a] ∧
    (∀ i, regIndex a = .ok i → ∃ t, exec (.jmp a) s = .next t ∧ OnlyPc (s.reg i).toNat s t) ∧
    (8 ≤ a.toNat → exec (.jmp a) s = .next (s.raise (.regOutOfRange a)))

/-- JEQ goes to the register exactly when Equal is set, JNE exactly when it is clear; a jump that is not taken goes to
`pc + 2` whatever its operand byte, a taken one with a bad register byte faults. Rests on `43_control_transfer.md`
(JEQ, JNE) and D28 (log 25). -/
def Obligations.JeqAndJneBranchOnEqual : Prop :=
  ∀ (s : State) (a : Byte),
    (∀ i, regIndex a = .ok i → s.flE = true → ∃ t, exec (.jeq a) s = .next t ∧ OnlyPc (s.reg i).toNat s t) ∧
    (∀ i, regIndex a = .ok i → s.flE = false → ∃ t, exec (.jne a) s = .next t ∧ OnlyPc (s.reg i).toNat s t) ∧
    (s.flE = false → ∃ t, exec (.jeq a) s = .next t ∧ OnlyPc (s.pc + 2) s t) ∧
    (s.flE = true → ∃ t, exec (.jne a) s = .next t ∧ OnlyPc (s.pc + 2) s t) ∧
    (8 ≤ a.toNat → s.flE = true → exec (.jeq a) s = .next (s.raise (.regOutOfRange a))) ∧
    (8 ≤ a.toNat → s.flE = false → exec (.jne a) s = .next (s.raise (.regOutOfRange a)))

/-! ## The ALU -/

/-- ADD, SUB and MUL write the exact result modulo 256 to the first register (which may be the second one, or the stack
pointer) and change nothing else but `pc`. Rests on `44_alu.md` section 2 (ADD, SUB, MUL); the width 8 is D1 (log 1). -/
def Obligations.AddSubMulWrap : Prop :=
  ∀ (s : State) (a b : Byte) (i j : Reg), regIndex a = .ok i → regIndex b = .ok j →
    (∃ t, exec (.add a b) s = .next t ∧ WroteRegister i (((s.reg i).toNat + (s.reg j).toNat) % 256) 3 s t) ∧
    (∃ t, exec (.sub a b) s = .next t ∧
      WroteRegister i ((((s.reg i).toNat : Int) - (s.reg j).toNat) % 256).toNat 3 s t) ∧
    (∃ t, exec (.mul a b) s = .next t ∧ WroteRegister i (((s.reg i).toNat * (s.reg j).toNat) % 256) 3 s t)

/-- DIV and MOD with a nonzero divisor write the unsigned quotient and remainder, which together give the dividend back.
Rests on `44_alu.md` (DIV, MOD) and D16 (log 16). -/
def Obligations.DivAndModOfANonzeroDivisor : Prop :=
  ∀ (s : State) (a b : Byte) (i j : Reg), regIndex a = .ok i → regIndex b = .ok j → (s.reg j).toNat ≠ 0 →
    ∃ t u q r, exec (.div a b) s = .next t ∧ exec (.mod a b) s = .next u ∧ WroteRegister i q 3 s t ∧
      WroteRegister i r 3 s u ∧ q * (s.reg j).toNat + r = (s.reg i).toNat ∧ r < (s.reg j).toNat

/-- Formalises `60_exceptions.md` rule R213: DIV and MOD by zero are the fault DivideByZero with the instruction's name,
and the destination register is not written (nothing is, but `RUN`). -/
def Obligations.DivAndModByZeroFault : Prop :=
  ∀ (s : State) (a b : Byte) (i j : Reg), regIndex a = .ok i → regIndex b = .ok j → (s.reg j).toNat = 0 →
    exec (.div a b) s = .next (s.raise (.divideByZero .div)) ∧ exec (.mod a b) s = .next (s.raise (.divideByZero .mod))

/-- AND, OR and XOR work bit by bit over the 8 bits. Rests on `44_alu.md` section 2 (AND, OR, XOR). -/
def Obligations.AndOrXorWorkBitByBit : Prop :=
  ∀ (s : State) (a b : Byte) (i j : Reg), regIndex a = .ok i → regIndex b = .ok j →
    (∃ t v, exec (.and a b) s = .next t ∧ WroteRegister i v 3 s t ∧
      ∀ k, v.testBit k = ((s.reg i).getLsbD k && (s.reg j).getLsbD k)) ∧
    (∃ t v, exec (.or a b) s = .next t ∧ WroteRegister i v 3 s t ∧
      ∀ k, v.testBit k = ((s.reg i).getLsbD k || (s.reg j).getLsbD k)) ∧
    (∃ t v, exec (.xor a b) s = .next t ∧ WroteRegister i v 3 s t ∧
      ∀ k, v.testBit k = ((s.reg i).getLsbD k ^^ (s.reg j).getLsbD k))

/-- SHL and SHR shift by the whole value of the second register, zeros entering, the bits shifted out lost; from 8 on the
result is 0. Rests on `44_alu.md` (SHL, SHR) and D17 (log 17). -/
def Obligations.ShiftsUseTheWholeCount : Prop :=
  ∀ (s : State) (a b : Byte) (i j : Reg), regIndex a = .ok i → regIndex b = .ok j →
    (∃ t, exec (.shl a b) s = .next t ∧
      WroteRegister i (((s.reg i).toNat * 2 ^ (s.reg j).toNat) % 256) 3 s t ∧ (8 ≤ (s.reg j).toNat → t.reg i = 0)) ∧
    (∃ t, exec (.shr a b) s = .next t ∧
      WroteRegister i ((s.reg i).toNat / 2 ^ (s.reg j).toNat) 3 s t ∧ (8 ≤ (s.reg j).toNat → t.reg i = 0))

/-- INC and DEC add and subtract 1 modulo 256, silently, the stack pointer included, and change nothing else but `pc`.
Rests on `44_alu.md` section 2 (INC, DEC) and D27 (log 24). -/
def Obligations.IncAndDecWrap : Prop :=
  ∀ (s : State) (a : Byte) (i : Reg), regIndex a = .ok i →
    (∃ t, exec (.inc a) s = .next t ∧ WroteRegister i (((s.reg i).toNat + 1) % 256) 2 s t) ∧
    (∃ t, exec (.dec a) s = .next t ∧ WroteRegister i ((((s.reg i).toNat : Int) - 1) % 256).toNat 2 s t)

/-! ## CMP and the flags -/

/-- CMP sets exactly one of Less, Greater and Equal, by the unsigned order of the two registers, and changes nothing else but
`pc`. Rests on `45_compare.md` and D18 (log 18); the bit positions are D4 (log 4). -/
def Obligations.CmpSetsExactlyOneFlag : Prop :=
  ∀ (s : State) (a b : Byte) (i j : Reg), regIndex a = .ok i → regIndex b = .ok j →
    ∃ t, exec (.cmp a b) s = .next t ∧
      ((s.reg i).toNat < (s.reg j).toNat → t.fl = 0b100#3) ∧
      ((s.reg i).toNat > (s.reg j).toNat → t.fl = 0b010#3) ∧
      ((s.reg i).toNat = (s.reg j).toNat → t.fl = 0b001#3) ∧
      (t.flL = true ↔ (s.reg i).toNat < (s.reg j).toNat) ∧
      (t.flG = true ↔ (s.reg i).toNat > (s.reg j).toNat) ∧
      (t.flE = true ↔ (s.reg i).toNat = (s.reg j).toNat) ∧
      SameRegsBut [] s t ∧ t.pc = s.pc + 3 ∧ t.run = s.run ∧ SameMemory s t ∧ SameEvents s t

/-- Formalises `10_state.md` rule R31. A step changes the flags only when it runs CMP. Of the flags, only Equal is read:
an instruction other than CMP does the same from any flags with the same Equal bit and carries them along; and CMP writes
all three bits, so it leaves no trace of the flags before. The debug observation shows all three. -/
def Obligations.FlagsAreWrittenByCmpAndOnlyEqualIsRead : Prop :=
  (∀ s t : State, step s = .next t → t.fl ≠ s.fl →
    ∃ a b rest, decode [s.byteAt s.pc, s.byteAt (s.pc + 1), s.byteAt (s.pc + 2)] = .ok (.cmp a b, rest)) ∧
  (∀ (i : Instr) (s : State) (f : BitVec 3), i.mnemonic ≠ .cmp → f.getLsbD 0 = s.flE →
    ∃ t, exec i s = .next t ∧ exec i (s.setFl f) = .next (t.setFl f)) ∧
  (∀ (a b : Byte) (s : State) (f : BitVec 3) (i j : Reg), regIndex a = .ok i → regIndex b = .ok j →
    exec (.cmp a b) (s.setFl f) = exec (.cmp a b) s) ∧
  (∀ s : State, s.observe.fl = s.fl)

/-! ## The engine -/

/-- When the three bytes at `pc` decode to an instruction, the step of a running core is that instruction: what stands around
its handler (the advance, the raising of a fault) is part of `exec`. Rests on `40_engine_cycle.md` section 1 (D6, log 6). -/
def Obligations.StepRunsTheDecodedInstruction : Prop :=
  ∀ (s : State) (i : Instr) (rest : List Byte), s.run = .running → s.pc ≤ 253 →
    decode [s.byteAt s.pc, s.byteAt (s.pc + 1), s.byteAt (s.pc + 2)] = .ok (i, rest) → step s = exec i s

/-- Formalises `10_state.md` rule R28. Bit 4 of the opcode byte is 1 exactly for CALL, RET, JMP, JEQ and JNE. An instruction
whose bit 4 is 0 leaves `pc` at its own address plus 1 plus its operand count, not reduced (from 253 it can be 256), HLT by 1;
for one whose bit 4 is 1 the engine leaves alone what the handler has set; a faulting instruction leaves `pc` unchanged. -/
def Obligations.ProgramCounterAdvance : Prop :=
  operandCount (opc .hlt) = 0 ∧
  ∀ (s : State) (i : Instr), s.run = .running → s.pc ≤ 253 →
    (pcIsSetByHandler (opc i.mnemonic) = true ↔ i.mnemonic ∈ [.call, .ret, .jmp, .jeq, .jne]) ∧
    ∃ t, exec i s = .next t ∧
      ((∀ f, t.run ≠ .faulted f) → pcIsSetByHandler (opc i.mnemonic) = false →
        t.pc = s.pc + 1 + operandCount (opc i.mnemonic)) ∧
      (pcIsSetByHandler (opc i.mnemonic) = true → advance (opc i.mnemonic) t = t ∧ ((∀ f, t.run ≠ .faulted f) → t.pc ≤ 255)) ∧
      (∀ f, t.run = .faulted f → t.pc = s.pc)

/-- No instruction executes at 254, 255 or 256, whatever the bytes there: the operand or opcode fetch faults first. Rests on
`40_engine_cycle.md` (step 1 and step 3) and D6, D7 (logs 6, 7). -/
def Obligations.FetchPastTheEndFaults : Prop :=
  ∀ s : State, s.run = .running →
    (s.pc = 254 → step s = .next (s.raise (.memOutOfRange 256 .fetchOperandB))) ∧
    (s.pc = 255 → step s = .next (s.raise (.memOutOfRange 256 .fetchOperandA))) ∧
    (s.pc = 256 → step s = .next (s.raise (.memOutOfRange 256 .fetchOpcode)))

/-- Formalises `60_exceptions.md` rule R211: a read or write outside 0 to 255 raises MemOutOfRange with the address and the
access kind; from a state of a run, a step raises it in exactly the three fetch cases, and the stack accesses never do. The
premise of the second part is the invariant OneStepKeepsTheInvariant keeps. -/
def Obligations.MemoryFaultsComeFromFetchOnly : Prop :=
  (∀ (s : State) (addr : Int) (v : Byte) (k : AccessKind), addr < 0 ∨ 255 < addr →
    memRead s addr k = .error (.memOutOfRange addr k) ∧ memWrite s addr v k = .error (.memOutOfRange addr k)) ∧
  ∀ (s t : State) (addr : Int) (k : AccessKind), s.Inv → s.run = .running → step s = .next t →
    (t.run = .faulted (.memOutOfRange addr k) ↔
      addr = 256 ∧ ((s.pc = 256 ∧ k = .fetchOpcode) ∨ (s.pc = 255 ∧ k = .fetchOperandA) ∨
        (s.pc = 254 ∧ k = .fetchOperandB)))

/-- An unrecognized opcode at 0 to 253: under `fatal` the fault with the byte and its address; under `skip` the report, an
advance of exactly 1 whatever the bits of the byte say, and nothing else. Rests on `40_engine_cycle.md` (step 4) and D5 (log 5). -/
def Obligations.UnrecognizedOpcodeFollowsThePolicy : Prop :=
  ∀ s : State, s.run = .running → s.pc ≤ 253 → lookup (s.byteAt s.pc) = none →
    (s.unsupportedPolicy = .fatal → step s = .next (s.raise (.unsupportedOpcode (s.byteAt s.pc) s.pc))) ∧
    (s.unsupportedPolicy = .skip → ∃ t, step s = .next t ∧ t.skipReports = s.skipReports ++ [(s.byteAt s.pc, s.pc)] ∧
      t.out = s.out ∧ t.unsupportedPolicy = s.unsupportedPolicy ∧ t.pc = s.pc + 1 ∧ SameRegsBut [] s t ∧ t.fl = s.fl ∧
      t.run = .running ∧ SameMemory s t)

/-- Formalises `60_exceptions.md` rule R212: an instruction raises RegOutOfRange exactly when one of the bytes it uses as a
register index is 8 or more, with the first such byte; HLT, RET, the immediate of LDI, the byte after a one-operand
instruction and the operand of a jump that is not taken never raise it. -/
def Obligations.RegisterFaultIsTheFirstBadByte : Prop :=
  ∀ (i : Instr) (s t : State) (b : Byte), s.run = .running → exec i s = .next t →
    (t.run = .faulted (.regOutOfRange b) ↔
      (Instr.usedRegisterBytes i s).find? (fun c => decide (8 ≤ c.toNat)) = some b)

/-- StackPointerOutOfRange is raised by PUSH and CALL with the stack pointer at 0, by POP and RET with the pointer they
increment at 255, and by nothing else. Rests on `60_exceptions.md` (the stack-pointer cause) and D14 (log 14). -/
def Obligations.StackPointerFaultsComeFromStackInstructions : Prop :=
  ∀ (i : Instr) (s t : State) (v : Int), s.run = .running → exec i s = .next t →
    t.run = .faulted (.stackPointerOutOfRange v) →
      ((i.mnemonic = .push ∨ i.mnemonic = .call) ∧ s.reg .sp = 0 ∧ v = -1) ∨
      (i.mnemonic = .ret ∧ (s.reg .sp).toNat = 255 ∧ v = 256) ∨
      (∃ a, i = .pop a ∧ v = 256 ∧
        ((regIndex a ≠ .ok .sp ∧ (s.reg .sp).toNat = 255) ∨
          (regIndex a = .ok .sp ∧ (s.byteAt (s.reg .sp).toNat).toNat = 255)))

/-- A step that faults changes nothing but `RUN`: every write of the step is discarded. Rests on `60_exceptions.md` section 3
and D11 (log 11). -/
def Obligations.AFaultChangesOnlyRun : Prop :=
  ∀ (s t : State) (f : Fault), s.run = .running → step s = .next t → t.run = .faulted f →
    SameRegsBut [] s t ∧ t.pc = s.pc ∧ t.fl = s.fl ∧ SameMemory s t ∧ SameEvents s t

/-- A running core halts only by running HLT, and `pc` is then the address after it. Rests on `10_state.md` section 4 and D19
(log 19). -/
def Obligations.OnlyHltHalts : Prop :=
  ∀ s t : State, s.run = .running → step s = .next t → t.run = .halted →
    t.pc = s.pc + 1 ∧
    ∃ rest, decode [s.byteAt s.pc, s.byteAt (s.pc + 1), s.byteAt (s.pc + 2)] = .ok (.hlt, rest)

/-- In a terminal state no instruction executes: a halted core stays exactly as it is, a faulted core answers its recorded
fault. The form of the two answers is the model's choice (log 34); that both are terminal is D10 (log 10). -/
def Obligations.TerminalStatesExecuteNothing : Prop :=
  ∀ s : State, (s.run = .halted → step s = .next s) ∧ (∀ f, s.run = .faulted f → step s = .fault f)

/-- A step changes a register only when it runs an instruction that writes it: the first operand of LDI, POP and the twelve ALU
instructions, and the stack pointer of PUSH, POP, CALL and RET. Rests on `10_state.md` section 1 (register operands). -/
def Obligations.RegistersAreWrittenByDestinationOnly : Prop :=
  ∀ (s t : State) (r : Reg), step s = .next t → t.reg r ≠ s.reg r →
    ∃ i rest, decode [s.byteAt s.pc, s.byteAt (s.pc + 1), s.byteAt (s.pc + 2)] = .ok (i, rest) ∧
      ((∃ a, i.registerOperands.head? = some a ∧ regIndex a = .ok r ∧
          i.mnemonic ∈ [.ldi, .pop, .add, .sub, .mul, .div, .mod, .and, .or, .xor, .shl, .shr, .inc, .dec]) ∨
        (r = .sp ∧ i.mnemonic ∈ [.push, .pop, .call, .ret]))

/-- A step changes at most one cell of memory, the one below the stack pointer, and only when it runs PUSH or CALL. Rests on
`20_memory.md` section 4. The premise is the invariant of the memory list. -/
def Obligations.MemoryIsWrittenByPushAndCallOnly : Prop :=
  ∀ (s t : State) (c : Nat), s.mem.wf → step s = .next t → t.byteAt c ≠ s.byteAt c →
    c + 1 = (s.reg .sp).toNat ∧
    ∃ i rest, decode [s.byteAt s.pc, s.byteAt (s.pc + 1), s.byteAt (s.pc + 2)] = .ok (i, rest) ∧
      (i.mnemonic = .push ∨ i.mnemonic = .call)

/-- A step appends at most one byte to the output, the register a PRN names, and never rewrites what was emitted. Rests on
`10_state.md` section 7 and D22 (log 22). -/
def Obligations.OutputGrowsByPrnOnly : Prop :=
  ∀ s t : State, step s = .next t → t.out = s.out ∨
    ∃ a r rest, decode [s.byteAt s.pc, s.byteAt (s.pc + 1), s.byteAt (s.pc + 2)] = .ok (.prn a, rest) ∧
      regIndex a = .ok r ∧ t.out = s.out ++ [s.reg r]

/-- No step reads the event logs: with other bytes emitted before and other reports made before, a step does the same and
leaves them in front. Rests on `10_state.md` section 7; the skip log is the model's (log 26). -/
def Obligations.EventLogsAreNeverRead : Prop :=
  ∀ (s t : State) (o : List Byte) (r : List (Byte × Nat)), step s = .next t →
    step { s with out := o ++ s.out, skipReports := r ++ s.skipReports } =
      .next { t with out := o ++ t.out, skipReports := r ++ t.skipReports }

/-- No step changes the model argument, and under `fatal` none makes a skip report. Rests on `00_scope.md` section 4 and D5
(log 5). -/
def Obligations.PolicyIsConstant : Prop :=
  ∀ s t : State, step s = .next t → t.unsupportedPolicy = s.unsupportedPolicy ∧
    (s.unsupportedPolicy = .fatal → t.skipReports = s.skipReports)

/-- A byte that PUSH stores where the next instruction lies is the opcode the next fetch reads. Rests on `20_memory.md`
section 8, an inference of the spec. The premise on memory is the invariant of the memory list. -/
def Obligations.AStoreIsSeenByTheNextFetch : Prop :=
  ∀ (s : State) (a : Byte) (i : Reg), s.mem.wf → regIndex a = .ok i → (s.reg .sp).toNat = s.pc + 3 → s.pc ≤ 251 →
    ∃ t, exec (.push a) s = .next t ∧
      fetch t = .ok (t.reg i, s.byteAt (s.pc + 3), s.byteAt (s.pc + 4))

/-! ## Invariants, reset and load -/

/-- The state after reset meets the invariant of a run. Rests on `10_state.md` section 9. -/
def Obligations.ResetMeetsTheInvariant : Prop := State.reset.Inv

/-- Every step keeps the invariant: the memory list stays canonical and inside its 256 cells, `pc` stays in 0 to 256, `FL`
stays one of its four values, and a recorded fault is one of the five with information it can have recorded. Rests on
`10_state.md` sections 2 and 3 and `60_exceptions.md` section 1. -/
def Obligations.OneStepKeepsTheInvariant : Prop :=
  ∀ s t : State, s.Inv → step s = .next t → t.Inv

/-- Formalises `00_scope.md` rules R10 and R11: the stack pointer and the program counter after reset. -/
def Obligations.ResetStackPointerAndPc : Prop :=
  ∀ s : State, (State.reset.reg .sp).toNat = 244 ∧ State.reset.pc = 0 ∧
    (s.applyReset.reg .sp).toNat = 244 ∧ s.applyReset.pc = 0

/-- Reset leaves memory zero, the core running, the output empty, and, by the spec's own choice (D8, D9; logs 8, 9),
registers R0 to R6 and the flags zero. Rests on `10_state.md` section 9; that a later reset keeps the model argument is
log 21. -/
def Obligations.ResetLeavesZeros : Prop :=
  ∀ (s : State) (a : Nat) (r : Reg), r ≠ .sp →
    s.applyReset.byteAt a = 0 ∧ s.applyReset.run = .running ∧ s.applyReset.out = [] ∧ s.applyReset.skipReports = [] ∧
    s.applyReset.reg r = 0 ∧ s.applyReset.fl = 0 ∧ s.applyReset.unsupportedPolicy = s.unsupportedPolicy ∧
    State.reset.applyReset = State.reset

/-- Load puts byte k of the image in cell k, leaves every cell past the image and everything else as it was, and keeps the
invariant; an image of more than 256 bytes is refused. Rests on `70_reset_and_hazards.md` section 1 and D20 (log 20). -/
def Obligations.LoadPlacesTheImage : Prop :=
  ∀ (s : State) (bytes : List Byte), s.Inv →
    (bytes.length ≤ 256 → ∃ t, s.load bytes = .next t ∧ t.Inv ∧
      (∀ k v, bytes[k]? = some v → t.byteAt k = v) ∧ (∀ k, bytes.length ≤ k → k < 256 → t.byteAt k = s.byteAt k) ∧
      SameRegsBut [] s t ∧ t.pc = s.pc ∧ t.fl = s.fl ∧ t.run = s.run ∧ SameEvents s t) ∧
    (256 < bytes.length → s.load bytes = .refused (.imageTooLong bytes.length))

/-- Between two instructions the tracer reads `pc`, the flags, the eight registers and the three bytes the next fetch will
read. Rests on `60_exceptions.md` section 7; nothing is shown for a cell beyond memory (log 30). -/
def Obligations.ObserveShowsWhatFetchWillRead : Prop :=
  ∀ (s : State) (ir a b : Byte), fetch s = .ok (ir, a, b) →
    s.observe.pc = s.pc ∧ s.observe.fl = s.fl ∧ s.observe.regs = s.regs ∧ s.observe.cells = [some ir, some a, some b]
end

