-- ==== Sys2Proof/Laws/Decode.lean ====
section
/-!
SUPPORT. The laws of the opcode map: the lookup and `OPC` are inverse, and the bits of an opcode give its format.
-/

namespace Sys2Proof

/-- The lookup knows every opcode of the encoder's table. -/
@[simp] theorem lookup_opc (m : Mnemonic) : lookup (opc m) = some m := by
  cases m <;> rfl

/-- An opcode the lookup knows is the encoder's opcode of that mnemonic. -/
theorem opc_of_lookup {ir : Byte} {m : Mnemonic} (h : lookup ir = some m) : ir = opc m := by
  unfold lookup at h
  split at h <;> first
    | (obtain rfl := Option.some.inj h; exact BitVec.eq_of_toNat_eq ‹_›)
    | cases h

/-- `OPC` is injective (`30_encoding.md` rule R86). -/
theorem opc_injective {m n : Mnemonic} (h : opc m = opc n) : m = n := by
  simpa using congrArg lookup h

/-- Bits 7:6 count the operand bytes of the instruction (`30_encoding.md` rule R80). -/
theorem operandCount_opc (i : Instr) : operandCount (opc i.mnemonic) = i.operands.length := by
  cases i <;> simp [operandCount, opc, Instr.mnemonic, Instr.operands]

/-- Bit 5 is set exactly for the ALU class (`30_encoding.md` rule R85). -/
theorem aluClass_opc (m : Mnemonic) :
    aluClass (opc m) =
      decide (m ∈ [.add, .sub, .mul, .div, .mod, .and, .or, .xor, .shl, .shr, .inc, .dec, .cmp]) := by
  cases m <;> decide

/-- Bit 4 is set exactly for the five control transfers (`30_encoding.md` rule R85). -/
theorem pcIsSetByHandler_opc (m : Mnemonic) :
    pcIsSetByHandler (opc m) = decide (m ∈ [.call, .ret, .jmp, .jeq, .jne]) := by
  cases m <;> decide

/-- Only a byte below 8 names a register, and it names the one it encodes (`30_encoding.md` rules R84 and R93). -/
theorem ofByte?_eq_some {b : Byte} {r : Reg} : Reg.ofByte? b = some r ↔ b = r.toByte := by
  constructor
  · intro h
    unfold Reg.ofByte? at h
    split at h <;> first
      | (obtain rfl := Option.some.inj h; exact BitVec.eq_of_toNat_eq ‹_›)
      | cases h
  · rintro rfl
    cases r <;> rfl

/-- A byte names no register exactly when it is 8 or more (`10_state.md` rule R22). -/
theorem ofByte?_eq_none {b : Byte} : Reg.ofByte? b = none ↔ 8 ≤ b.toNat := by
  constructor
  · intro h
    by_contra hlt
    have : b.toNat = 0 ∨ b.toNat = 1 ∨ b.toNat = 2 ∨ b.toNat = 3 ∨ b.toNat = 4 ∨ b.toNat = 5 ∨ b.toNat = 6 ∨
        b.toNat = 7 := by omega
    unfold Reg.ofByte? at h
    rcases this with hb | hb | hb | hb | hb | hb | hb | hb <;> simp [hb] at h
  · intro h
    unfold Reg.ofByte?
    split <;> first | omega | rfl

/-! ### Three fetched bytes -/

/-- A known opcode byte is decoded with its operands. -/
theorem decode_of_recognized {ir : Byte} {rest : List Byte} {m : Mnemonic} (h : lookup ir = some m) :
    decode (ir :: rest) = decodeOperands m ir rest := by
  simp only [decode, h]

/-- An opcode byte the lookup does not know is rejected by name, whatever follows. -/
theorem decode_of_unrecognized {ir : Byte} {rest : List Byte} (h : lookup ir = none) :
    decode (ir :: rest) = .error (.unrecognized ir) := by
  simp only [decode, h]

/-- Three fetched bytes with a known opcode are an instruction of that mnemonic. -/
theorem decode_three {ir a b : Byte} {m : Mnemonic} (h : lookup ir = some m) :
    ∃ i rest, decode [ir, a, b] = .ok (i, rest) ∧ i.mnemonic = m := by
  obtain rfl := opc_of_lookup h
  cases m <;> exact ⟨_, _, rfl, rfl⟩

/-- The opcode byte of decoded bytes is the opcode of the instruction. -/
theorem opcode_of_decode {ir : Byte} {tail rest : List Byte} {i : Instr} (h : decode (ir :: tail) = .ok (i, rest)) :
    lookup ir = some i.mnemonic := by
  cases hl : lookup ir with
  | none =>
    rw [decode_of_unrecognized hl] at h
    cases h
  | some m =>
    rw [decode_of_recognized hl] at h
    unfold decodeOperands at h
    have hm : ∀ a b, (m.withOperands a b).mnemonic = m := by
      intro a b
      cases m <;> rfl
    split at h <;> first
      | (obtain ⟨rfl, rfl⟩ := Prod.mk.inj (Except.ok.inj h); rw [hm])
      | cases h

end Sys2Proof
end

