-- ==== Sys2Proof/Laws/State.lean ====
section
/-!
SUPPORT. One lemma per field per update of State, and the laws of the register file.
-/

namespace Sys2Proof.Machine

/-! ### The register file -/

@[simp] theorem RegFile.get_set_self (f : RegFile) (r : Reg) (v : Word) : (f.set r v).get r = v := by
  cases r <;> rfl

theorem RegFile.get_set_ne (f : RegFile) {r q : Reg} (v : Word) (h : q ≠ r) : (f.set r v).get q = f.get q := by
  cases r <;> cases q <;> first | rfl | exact absurd rfl h

/-! ### x[r] <- v -/

@[simp] theorem setReg_reg_self (s : State) (r : Reg) (v : Word) : (s.setReg r v).reg r = v :=
  RegFile.get_set_self _ _ _

theorem setReg_reg_ne (s : State) {r q : Reg} (v : Word) (h : q ≠ r) : (s.setReg r v).reg q = s.reg q :=
  RegFile.get_set_ne _ _ h

theorem setReg_reg (s : State) (r q : Reg) (v : Word) : (s.setReg r v).reg q = if q = r then v else s.reg q := by
  split
  · subst q; simp
  · exact setReg_reg_ne s v ‹_›

@[simp] theorem setReg_pc (s : State) (r : Reg) (v : Word) : (s.setReg r v).pc = s.pc := rfl
@[simp] theorem setReg_fl (s : State) (r : Reg) (v : Word) : (s.setReg r v).fl = s.fl := rfl
@[simp] theorem setReg_run (s : State) (r : Reg) (v : Word) : (s.setReg r v).run = s.run := rfl
@[simp] theorem setReg_mem (s : State) (r : Reg) (v : Word) : (s.setReg r v).mem = s.mem := rfl
@[simp] theorem setReg_out (s : State) (r : Reg) (v : Word) : (s.setReg r v).out = s.out := rfl
@[simp] theorem setReg_skipReports (s : State) (r : Reg) (v : Word) : (s.setReg r v).skipReports = s.skipReports := rfl
@[simp] theorem setReg_policy (s : State) (r : Reg) (v : Word) :
    (s.setReg r v).unsupportedPolicy = s.unsupportedPolicy := rfl
@[simp] theorem setReg_byteAt (s : State) (r : Reg) (v : Word) (a : Nat) : (s.setReg r v).byteAt a = s.byteAt a := rfl
@[simp] theorem setReg_flE (s : State) (r : Reg) (v : Word) : (s.setReg r v).flE = s.flE := rfl

/-! ### pc <- t -/

@[simp] theorem setPc_pc (s : State) (t : Nat) : (s.setPc t).pc = t := rfl
@[simp] theorem setPc_regs (s : State) (t : Nat) : (s.setPc t).regs = s.regs := rfl
@[simp] theorem setPc_reg (s : State) (t : Nat) (r : Reg) : (s.setPc t).reg r = s.reg r := rfl
@[simp] theorem setPc_fl (s : State) (t : Nat) : (s.setPc t).fl = s.fl := rfl
@[simp] theorem setPc_run (s : State) (t : Nat) : (s.setPc t).run = s.run := rfl
@[simp] theorem setPc_mem (s : State) (t : Nat) : (s.setPc t).mem = s.mem := rfl
@[simp] theorem setPc_out (s : State) (t : Nat) : (s.setPc t).out = s.out := rfl
@[simp] theorem setPc_skipReports (s : State) (t : Nat) : (s.setPc t).skipReports = s.skipReports := rfl
@[simp] theorem setPc_policy (s : State) (t : Nat) : (s.setPc t).unsupportedPolicy = s.unsupportedPolicy := rfl
@[simp] theorem setPc_byteAt (s : State) (t a : Nat) : (s.setPc t).byteAt a = s.byteAt a := rfl

/-! ### FL <- v -/

@[simp] theorem setFl_fl (s : State) (v : BitVec 3) : (s.setFl v).fl = v := rfl
@[simp] theorem setFl_regs (s : State) (v : BitVec 3) : (s.setFl v).regs = s.regs := rfl
@[simp] theorem setFl_reg (s : State) (v : BitVec 3) (r : Reg) : (s.setFl v).reg r = s.reg r := rfl
@[simp] theorem setFl_pc (s : State) (v : BitVec 3) : (s.setFl v).pc = s.pc := rfl
@[simp] theorem setFl_run (s : State) (v : BitVec 3) : (s.setFl v).run = s.run := rfl
@[simp] theorem setFl_mem (s : State) (v : BitVec 3) : (s.setFl v).mem = s.mem := rfl
@[simp] theorem setFl_out (s : State) (v : BitVec 3) : (s.setFl v).out = s.out := rfl
@[simp] theorem setFl_skipReports (s : State) (v : BitVec 3) : (s.setFl v).skipReports = s.skipReports := rfl
@[simp] theorem setFl_policy (s : State) (v : BitVec 3) : (s.setFl v).unsupportedPolicy = s.unsupportedPolicy := rfl
@[simp] theorem setFl_byteAt (s : State) (v : BitVec 3) (a : Nat) : (s.setFl v).byteAt a = s.byteAt a := rfl

/-! ### RUN <- r, and raise -/

@[simp] theorem setRun_run (s : State) (r : RunState) : (s.setRun r).run = r := rfl
@[simp] theorem setRun_regs (s : State) (r : RunState) : (s.setRun r).regs = s.regs := rfl
@[simp] theorem setRun_reg (s : State) (r : RunState) (q : Reg) : (s.setRun r).reg q = s.reg q := rfl
@[simp] theorem setRun_pc (s : State) (r : RunState) : (s.setRun r).pc = s.pc := rfl
@[simp] theorem setRun_fl (s : State) (r : RunState) : (s.setRun r).fl = s.fl := rfl
@[simp] theorem setRun_mem (s : State) (r : RunState) : (s.setRun r).mem = s.mem := rfl
@[simp] theorem setRun_out (s : State) (r : RunState) : (s.setRun r).out = s.out := rfl
@[simp] theorem setRun_skipReports (s : State) (r : RunState) : (s.setRun r).skipReports = s.skipReports := rfl
@[simp] theorem setRun_policy (s : State) (r : RunState) : (s.setRun r).unsupportedPolicy = s.unsupportedPolicy := rfl
@[simp] theorem setRun_byteAt (s : State) (r : RunState) (a : Nat) : (s.setRun r).byteAt a = s.byteAt a := rfl

@[simp] theorem raise_run (s : State) (f : Fault) : (s.raise f).run = .faulted f := rfl
@[simp] theorem raise_regs (s : State) (f : Fault) : (s.raise f).regs = s.regs := rfl
@[simp] theorem raise_reg (s : State) (f : Fault) (q : Reg) : (s.raise f).reg q = s.reg q := rfl
@[simp] theorem raise_pc (s : State) (f : Fault) : (s.raise f).pc = s.pc := rfl
@[simp] theorem raise_fl (s : State) (f : Fault) : (s.raise f).fl = s.fl := rfl
@[simp] theorem raise_mem (s : State) (f : Fault) : (s.raise f).mem = s.mem := rfl
@[simp] theorem raise_out (s : State) (f : Fault) : (s.raise f).out = s.out := rfl
@[simp] theorem raise_skipReports (s : State) (f : Fault) : (s.raise f).skipReports = s.skipReports := rfl
@[simp] theorem raise_policy (s : State) (f : Fault) : (s.raise f).unsupportedPolicy = s.unsupportedPolicy := rfl
@[simp] theorem raise_byteAt (s : State) (f : Fault) (a : Nat) : (s.raise f).byteAt a = s.byteAt a := rfl

/-! ### Emit -/

@[simp] theorem emit_out (s : State) (v : Byte) : (s.emit v).out = s.out ++ [v] := rfl
@[simp] theorem emit_regs (s : State) (v : Byte) : (s.emit v).regs = s.regs := rfl
@[simp] theorem emit_reg (s : State) (v : Byte) (r : Reg) : (s.emit v).reg r = s.reg r := rfl
@[simp] theorem emit_pc (s : State) (v : Byte) : (s.emit v).pc = s.pc := rfl
@[simp] theorem emit_fl (s : State) (v : Byte) : (s.emit v).fl = s.fl := rfl
@[simp] theorem emit_run (s : State) (v : Byte) : (s.emit v).run = s.run := rfl
@[simp] theorem emit_mem (s : State) (v : Byte) : (s.emit v).mem = s.mem := rfl
@[simp] theorem emit_skipReports (s : State) (v : Byte) : (s.emit v).skipReports = s.skipReports := rfl
@[simp] theorem emit_policy (s : State) (v : Byte) : (s.emit v).unsupportedPolicy = s.unsupportedPolicy := rfl
@[simp] theorem emit_byteAt (s : State) (v : Byte) (a : Nat) : (s.emit v).byteAt a = s.byteAt a := rfl

end Sys2Proof.Machine
end

