-- ==== Sys2Proof/Laws/Memory.lean ====
section
/-!
SUPPORT. The laws of the memory list: read after write, and that every operation keeps the canonical form.
-/

namespace Sys2Proof.Machine

theorem Memory.wf_nil : Memory.wf [] := by simp [Memory.wf]

/-- The canonical form of a list is that of its head and its tail. -/
theorem Memory.wf_cons {k : Nat} {w : Byte} {m : Memory} :
    Memory.wf ((k, w) :: m) ↔ (∀ c ∈ m, k < c.1) ∧ (w ≠ 0 ∧ k < Config.memSize) ∧ m.wf := by
  simp only [Memory.wf, List.pairwise_cons, List.forall_mem_cons]
  tauto

/-- A cell below every listed address reads as 0. -/
theorem Memory.get_of_lt {m : Memory} {a : Nat} (h : ∀ c ∈ m, a < c.1) : m.get a = 0 := by
  induction m with
  | nil => rfl
  | cons c m ih =>
    obtain ⟨k, w⟩ := c
    have hk : a < k := h (k, w) (by simp)
    rw [Memory.get, if_neg (by omega)]
    exact ih fun c hc => h c (by simp [hc])

/-- Where the entries of the list after a write come from. -/
theorem Memory.mem_set {m : Memory} {a : Nat} {v : Byte} {c : Host.Cell} (h : c ∈ m.set a v) :
    c ∈ m ∨ (c = (a, v) ∧ v ≠ 0) := by
  induction m with
  | nil =>
    simp only [Memory.set] at h
    split at h <;> simp_all
  | cons d m ih =>
    obtain ⟨k, w⟩ := d
    simp only [Memory.set] at h
    split at h
    · split at h
      · exact .inl h
      · rcases List.mem_cons.1 h with rfl | h
        · exact .inr ⟨rfl, ‹_›⟩
        · exact .inl h
    · split at h
      · split at h
        · exact .inl (by simp [h])
        · rcases List.mem_cons.1 h with rfl | h
          · exact .inr ⟨rfl, ‹_›⟩
          · exact .inl (by simp [h])
      · rcases List.mem_cons.1 h with rfl | h
        · exact .inl (by simp)
        · rcases ih h with h | h
          · exact .inl (by simp [h])
          · exact .inr h

/-- A write inside the memory keeps the canonical form. -/
theorem Memory.set_wf {m : Memory} {a : Nat} (v : Byte) (hm : m.wf) (ha : a < Config.memSize) : (m.set a v).wf := by
  induction m with
  | nil =>
    simp only [Memory.set]
    split
    · exact Memory.wf_nil
    · exact Memory.wf_cons.2 ⟨by simp, ⟨‹_›, ha⟩, Memory.wf_nil⟩
  | cons d m ih =>
    obtain ⟨k, w⟩ := d
    obtain ⟨hlt, hw, hwf⟩ := Memory.wf_cons.1 hm
    simp only [Memory.set]
    split
    · split
      · exact hm
      · refine Memory.wf_cons.2 ⟨?_, ⟨‹_›, ha⟩, hm⟩
        intro c hc
        rcases List.mem_cons.1 hc with rfl | hc
        · assumption
        · have := hlt c hc
          omega
    · split
      · subst_vars
        split
        · exact hwf
        · exact Memory.wf_cons.2 ⟨hlt, ⟨‹_›, ha⟩, hwf⟩
      · refine Memory.wf_cons.2 ⟨?_, hw, ih hwf⟩
        intro c hc
        rcases Memory.mem_set hc with hc | ⟨rfl, -⟩
        · exact hlt c hc
        · show k < a
          omega

/-- A read after a write in a canonical memory: the value written at that cell, the old value at every other. -/
theorem Memory.get_set {m : Memory} {a : Nat} (v : Byte) (hm : m.wf) (c : Nat) :
    (m.set a v).get c = if c = a then v else m.get c := by
  induction m with
  | nil =>
    simp only [Memory.set]
    by_cases hv : v = 0
    · rw [if_pos hv, hv]
      exact (ite_self _).symm
    · rw [if_neg hv]
      by_cases hc : c = a
      · rw [if_pos hc, hc, Memory.get, if_pos rfl]
      · rw [if_neg hc]
        exact if_neg (Ne.symm hc)
  | cons d m ih =>
    obtain ⟨k, w⟩ := d
    obtain ⟨hlt, -, hwf⟩ := Memory.wf_cons.1 hm
    simp only [Memory.set]
    by_cases hak : a < k
    · rw [if_pos hak]
      have hbelow : Memory.get ((k, w) :: m) a = 0 := by
        refine Memory.get_of_lt fun c hc => ?_
        rcases List.mem_cons.1 hc with rfl | hc
        · exact hak
        · have := hlt c hc
          omega
      by_cases hv : v = 0
      · rw [if_pos hv]
        by_cases hc : c = a
        · rw [if_pos hc, hc, hbelow, hv]
        · rw [if_neg hc]
      · rw [if_neg hv, Memory.get]
        by_cases hc : c = a
        · rw [if_pos hc, if_pos hc.symm]
        · rw [if_neg hc, if_neg (Ne.symm hc)]
    · rw [if_neg hak]
      by_cases hk : a = k
      · subst hk
        rw [if_pos rfl]
        by_cases hv : v = 0
        · rw [if_pos hv]
          by_cases hc : c = a
          · subst hc
            rw [if_pos rfl, hv]
            exact Memory.get_of_lt hlt
          · rw [if_neg hc, Memory.get, if_neg (Ne.symm hc)]
        · rw [if_neg hv]
          by_cases hc : c = a
          · rw [if_pos hc, hc, Memory.get, if_pos rfl]
          · rw [if_neg hc, Memory.get, if_neg (Ne.symm hc), Memory.get, if_neg (Ne.symm hc)]
      · rw [if_neg hk, Memory.get, Memory.get, ih hwf]
        by_cases hc : c = a
        · rw [if_pos hc, if_neg (by omega), if_pos hc]
        · rw [if_neg hc, if_neg hc]

/-- Placing bytes keeps the canonical form. -/
theorem Memory.place_wf {m : Memory} (bs : List Byte) (a : Nat) (hm : m.wf) : (m.place a bs).wf := by
  induction bs generalizing m a with
  | nil => exact hm
  | cons b bs ih =>
    simp only [Memory.place]
    split
    · exact ih _ (Memory.set_wf b hm ‹_›)
    · exact ih _ hm

/-- What a cell inside the memory reads after bytes are placed from `a` on. -/
theorem Memory.get_place {m : Memory} (bs : List Byte) (a c : Nat) (hm : m.wf) (hc : c < Config.memSize) :
    (m.place a bs).get c = if a ≤ c ∧ c < a + bs.length then bs.getD (c - a) 0 else m.get c := by
  induction bs generalizing m a with
  | nil =>
    rw [if_neg (by simp)]
    rfl
  | cons b bs ih =>
    simp only [Memory.place, List.length_cons]
    have key : (if a < Config.memSize then m.set a b else m).get c = if c = a then b else m.get c := by
      split
      · exact Memory.get_set b hm c
      · rw [if_neg (by omega)]
    have hwf : (if a < Config.memSize then m.set a b else m).wf := by
      split
      · exact Memory.set_wf b hm ‹_›
      · exact hm
    rw [ih _ hwf, key]
    by_cases h : c = a
    · subst h
      rw [if_neg (by omega), if_pos rfl, if_pos (by omega)]
      simp
    · by_cases h2 : a + 1 ≤ c ∧ c < a + 1 + bs.length
      · have hsub : c - a = (c - (a + 1)) + 1 := by omega
        rw [if_pos h2, if_pos (by omega), hsub]
        simp
      · rw [if_neg h2, if_neg h, if_neg (by omega)]

/-- A reset memory lists nothing, so every cell reads as 0. -/
@[simp] theorem reset_byteAt (a : Nat) : State.reset.byteAt a = 0 := rfl

end Sys2Proof.Machine
end

