-- ==== Sys2Proof/Laws/Ops.lean ====
section
/-!
SUPPORT. One lemma for each shared operation that says everything it can do. The provers cite these instead of
unfolding the operations.
-/

namespace Sys2Proof.Machine

/-! ### Handlers in sequence -/

/-- A sequence of two parts succeeds exactly when both do. -/
theorem bind_eq_ok {α β : Type} {x : Except Fault α} {g : α → Except Fault β} {b : β} :
    (x >>= g) = .ok b ↔ ∃ a, x = .ok a ∧ g a = .ok b := by
  cases x <;> simp [bind, Except.bind]

/-- A sequence of two parts raises what its first part raises, or what its second part raises after the first. -/
theorem bind_eq_error {α β : Type} {x : Except Fault α} {g : α → Except Fault β} {f : Fault} :
    (x >>= g) = .error f ↔ x = .error f ∨ ∃ a, x = .ok a ∧ g a = .error f := by
  cases x <;> simp [bind, Except.bind]

@[simp] theorem ok_bind {α β : Type} (a : α) (g : α → Except Fault β) : ((Except.ok a : Except Fault α) >>= g) = g a := rfl

@[simp] theorem error_bind {α β : Type} (f : Fault) (g : α → Except Fault β) :
    ((Except.error f : Except Fault α) >>= g) = .error f := rfl

/-! ### RegIndex -/

/-- `RegIndex` succeeds exactly on the byte of the register (`10_state.md` rule R22). -/
theorem regIndex_eq_ok {b : Byte} {r : Reg} : regIndex b = .ok r ↔ b = r.toByte := by
  rw [← ofByte?_eq_some, regIndex]
  cases Reg.ofByte? b <;> simp

@[simp] theorem regIndex_toByte (r : Reg) : regIndex r.toByte = .ok r := regIndex_eq_ok.2 rfl

/-- `RegIndex` raises only RegOutOfRange with the byte, exactly when the byte is 8 or more. -/
theorem regIndex_eq_error {b : Byte} {f : Fault} : regIndex b = .error f ↔ f = .regOutOfRange b ∧ 8 ≤ b.toNat := by
  rw [← ofByte?_eq_none, regIndex]
  cases Reg.ofByte? b <;> simp [eq_comm]

theorem regIndex_of_le {b : Byte} (h : 8 ≤ b.toNat) : regIndex b = .error (.regOutOfRange b) :=
  regIndex_eq_error.2 ⟨rfl, h⟩

/-- A byte below 8 names a register. -/
theorem regIndex_of_lt {b : Byte} (h : b.toNat < 8) : ∃ r, regIndex b = .ok r := by
  cases hb : regIndex b with
  | ok r => exact ⟨r, rfl⟩
  | error f =>
    have := (regIndex_eq_error.1 hb).2
    omega

/-! ### Memory access -/

theorem inMemory_natCast (a : Nat) : inMemory a = decide (a < 256) := by
  simp [inMemory, Config.memSize]

/-- A read inside the memory gives the cell (`20_memory.md` rule R51). -/
theorem memRead_nat {s : State} {a : Nat} (k : AccessKind) (h : a < 256) : memRead s a k = .ok (s.byteAt a) := by
  simp [memRead, inMemory_natCast, h]

/-- A read outside it raises MemOutOfRange (`20_memory.md` rule R51). -/
theorem memRead_nat_of_le {s : State} {a : Nat} (k : AccessKind) (h : 256 ≤ a) :
    memRead s a k = .error (.memOutOfRange a k) := by
  simp [memRead, inMemory_natCast, h]

/-- The state with byte `v` in cell `a`. -/
def State.setByte (s : State) (a : Nat) (v : Byte) : State := { s with mem := s.mem.set a v }

@[simp] theorem setByte_regs (s : State) (a : Nat) (v : Byte) : (s.setByte a v).regs = s.regs := rfl
@[simp] theorem setByte_reg (s : State) (a : Nat) (v : Byte) (r : Reg) : (s.setByte a v).reg r = s.reg r := rfl
@[simp] theorem setByte_pc (s : State) (a : Nat) (v : Byte) : (s.setByte a v).pc = s.pc := rfl
@[simp] theorem setByte_fl (s : State) (a : Nat) (v : Byte) : (s.setByte a v).fl = s.fl := rfl
@[simp] theorem setByte_run (s : State) (a : Nat) (v : Byte) : (s.setByte a v).run = s.run := rfl
@[simp] theorem setByte_out (s : State) (a : Nat) (v : Byte) : (s.setByte a v).out = s.out := rfl
@[simp] theorem setByte_skipReports (s : State) (a : Nat) (v : Byte) :
    (s.setByte a v).skipReports = s.skipReports := rfl
@[simp] theorem setByte_policy (s : State) (a : Nat) (v : Byte) :
    (s.setByte a v).unsupportedPolicy = s.unsupportedPolicy := rfl
@[simp] theorem setByte_mem (s : State) (a : Nat) (v : Byte) : (s.setByte a v).mem = s.mem.set a v := rfl

/-- Reading a cell after a store in a canonical memory. -/
theorem setByte_byteAt {s : State} {a : Nat} (v : Byte) (hm : s.mem.wf) (c : Nat) :
    (s.setByte a v).byteAt c = if c = a then v else s.byteAt c :=
  Memory.get_set v hm c

/-- A store inside the memory (`20_memory.md` rule R52). -/
theorem memWrite_nat {s : State} {a : Nat} (v : Byte) (k : AccessKind) (h : a < 256) :
    memWrite s a v k = .ok (s.setByte a v) := by
  simp [memWrite, inMemory_natCast, h, State.setByte]

/-! ### The stack pointer -/

/-- The stack read is always in range and gives the cell at the stack pointer (`20_memory.md` rule R67). -/
@[simp] theorem stackRead_eq (s : State) : stackRead s = .ok (s.byteAt (s.reg .sp).toNat) :=
  memRead_nat _ (s.reg .sp).isLt

/-- The stack write is always in range and stores at the stack pointer (`20_memory.md` rule R67). -/
@[simp] theorem stackWrite_eq (s : State) (v : Byte) : stackWrite s v = .ok (s.setByte (s.reg .sp).toNat v) :=
  memWrite_nat _ _ (s.reg .sp).isLt

/-- The stack grows by one cell, or raises at stack pointer 0 (`60_exceptions.md` rule R217). -/
theorem stackGrow_eq (s : State) :
    stackGrow s = if (s.reg .sp).toNat = 0 then .error (.stackPointerOutOfRange (-1))
      else .ok (s.setReg .sp (BitVec.ofNat 8 ((s.reg .sp).toNat - 1))) := by
  have hlt := (s.reg .sp).isLt
  unfold stackGrow checkedSp
  by_cases h : (s.reg .sp).toNat = 0
  · rw [if_pos h, if_neg (by omega), h]
    rfl
  · rw [if_neg h, if_pos (by omega)]
    have hcast : ((s.reg .sp).toNat : Int) - 1 = (((s.reg .sp).toNat - 1 : Nat) : Int) := by omega
    rw [hcast, BitVec.ofInt_natCast]
    rfl

/-- The stack shrinks by one cell, or raises at stack pointer 255 (`60_exceptions.md` rule R217). -/
theorem stackShrink_eq (s : State) :
    stackShrink s = if (s.reg .sp).toNat = 255 then .error (.stackPointerOutOfRange 256)
      else .ok (s.setReg .sp (BitVec.ofNat 8 ((s.reg .sp).toNat + 1))) := by
  have hlt := (s.reg .sp).isLt
  unfold stackShrink checkedSp
  by_cases h : (s.reg .sp).toNat = 255
  · rw [if_pos h, if_neg (by omega), h]
    rfl
  · rw [if_neg h, if_pos (by omega)]
    have hcast : ((s.reg .sp).toNat : Int) + 1 = (((s.reg .sp).toNat + 1 : Nat) : Int) := by omega
    rw [hcast, BitVec.ofInt_natCast]
    rfl

/-! ### The engine around a handler -/

/-- What an instruction answers, when its handler completes. -/
theorem complete_of_ok {ir : Byte} {h : Handler} {s t : State} (hs : h s = .ok t) :
    complete ir h s = .next (advance ir t) := by
  simp [complete, hs]

/-- What an instruction answers, when its handler raises: only `RUN` changes (`60_exceptions.md` rule R216). -/
theorem complete_of_error {ir : Byte} {h : Handler} {s : State} {f : Fault} (hs : h s = .error f) :
    complete ir h s = .next (s.raise f) := by
  simp [complete, hs]

/-- Everything `complete` can do. -/
theorem complete_eq_next {ir : Byte} {h : Handler} {s u : State} :
    complete ir h s = .next u ↔ (∃ t, h s = .ok t ∧ u = advance ir t) ∨ (∃ f, h s = .error f ∧ u = s.raise f) := by
  unfold complete
  cases h s <;> simp [eq_comm]

/-- An instruction always answers a next state. -/
theorem complete_next (ir : Byte) (h : Handler) (s : State) : ∃ u, complete ir h s = .next u := by
  unfold complete
  cases h s <;> simp

@[simp] theorem advance_regs (ir : Byte) (s : State) : (advance ir s).regs = s.regs := by unfold advance; split <;> rfl
@[simp] theorem advance_reg (ir : Byte) (s : State) (r : Reg) : (advance ir s).reg r = s.reg r := by
  unfold advance; split <;> rfl
@[simp] theorem advance_fl (ir : Byte) (s : State) : (advance ir s).fl = s.fl := by unfold advance; split <;> rfl
@[simp] theorem advance_run (ir : Byte) (s : State) : (advance ir s).run = s.run := by unfold advance; split <;> rfl
@[simp] theorem advance_mem (ir : Byte) (s : State) : (advance ir s).mem = s.mem := by unfold advance; split <;> rfl
@[simp] theorem advance_out (ir : Byte) (s : State) : (advance ir s).out = s.out := by unfold advance; split <;> rfl
@[simp] theorem advance_skipReports (ir : Byte) (s : State) : (advance ir s).skipReports = s.skipReports := by
  unfold advance; split <;> rfl
@[simp] theorem advance_policy (ir : Byte) (s : State) : (advance ir s).unsupportedPolicy = s.unsupportedPolicy := by
  unfold advance; split <;> rfl
@[simp] theorem advance_byteAt (ir : Byte) (s : State) (a : Nat) : (advance ir s).byteAt a = s.byteAt a := by
  unfold advance; split <;> rfl

/-- Where step 6 puts `pc` (`40_engine_cycle.md` rule R116). -/
theorem advance_pc (ir : Byte) (s : State) :
    (advance ir s).pc = if pcIsSetByHandler ir then s.pc else s.pc + operandCount ir + 1 := by
  unfold advance; split <;> rfl

/-! ### Fetch -/

/-- A fetch at 0 to 253 reads its three bytes (`40_engine_cycle.md` rule R113). -/
theorem fetch_eq_ok {s : State} (h : s.pc ≤ 253) :
    fetch s = .ok (s.byteAt s.pc, s.byteAt (s.pc + 1), s.byteAt (s.pc + 2)) := by
  have h1 : memRead s (s.pc + 1) .fetchOperandA = .ok (s.byteAt (s.pc + 1)) := by
    exact_mod_cast memRead_nat (s := s) (a := s.pc + 1) .fetchOperandA (by omega)
  have h2 : memRead s (s.pc + 2) .fetchOperandB = .ok (s.byteAt (s.pc + 2)) := by
    exact_mod_cast memRead_nat (s := s) (a := s.pc + 2) .fetchOperandB (by omega)
  simp [fetch, memRead_nat (s := s) (a := s.pc) .fetchOpcode (by omega), h1, h2]

/-- The fetch fault of every other `pc` (`40_engine_cycle.md` rules R111 and R113). -/
theorem fetch_eq_error {s : State} (h : 253 < s.pc) :
    fetch s = .error (if s.pc = 254 then .memOutOfRange 256 .fetchOperandB
      else if s.pc = 255 then .memOutOfRange 256 .fetchOperandA else .memOutOfRange s.pc .fetchOpcode) := by
  by_cases h0 : s.pc = 254
  · have h1 : memRead s (254 : Nat) .fetchOpcode = .ok (s.byteAt 254) := memRead_nat _ (by omega)
    have h2 : memRead s (255 : Nat) .fetchOperandA = .ok (s.byteAt 255) := memRead_nat _ (by omega)
    have h3 : memRead s (256 : Nat) .fetchOperandB = .error (.memOutOfRange 256 .fetchOperandB) :=
      memRead_nat_of_le _ (by omega)
    norm_num at h1 h2 h3
    simp [fetch, h0, h1, h2, h3]
  · by_cases h1 : s.pc = 255
    · have h2 : memRead s (255 : Nat) .fetchOpcode = .ok (s.byteAt 255) := memRead_nat _ (by omega)
      have h3 : memRead s (256 : Nat) .fetchOperandA = .error (.memOutOfRange 256 .fetchOperandA) :=
        memRead_nat_of_le _ (by omega)
      norm_num at h2 h3
      simp [fetch, h1, h2, h3]
    · simp [fetch, h0, h1, memRead_nat_of_le (s := s) (a := s.pc) .fetchOpcode (by omega)]

/-! ### An unrecognized opcode -/

theorem unsupported_fatal {s : State} (ir : Byte) (h : s.unsupportedPolicy = .fatal) :
    unsupported ir s = s.raise (.unsupportedOpcode ir s.pc) := by
  simp [unsupported, h]

theorem unsupported_skip {s : State} (ir : Byte) (h : s.unsupportedPolicy = .skip) :
    unsupported ir s = { s with skipReports := s.skipReports ++ [(ir, s.pc)], pc := s.pc + 1 } := by
  simp [unsupported, h]

end Sys2Proof.Machine
end

