-- ==== Sys2Proof/Laws/Alu.lean ====
section
/-!
SUPPORT. What the ALU computes, as numbers (`44_alu.md`).
-/

namespace Sys2Proof.Machine

/-- The reduction modulo 256 of an integer (`44_alu.md` rule R171). -/
theorem wrap_toNat (r : Int) : (wrap r).toNat = (r % 256).toNat := by
  simp [wrap, BitVec.toNat_ofInt]

/-- The reduction modulo 256 of a natural number (`44_alu.md` rule R171). -/
theorem wrap_natCast_toNat (n : Nat) : (wrap (n : Int)).toNat = n % 256 := by
  simp [wrap]

/-- Everything a two-operand ALU instruction's handler can do when it completes (`44_alu.md` rule R170). -/
theorem aluBinary_eq_ok {op : BinaryOp} {a b : Byte} {s t : State} :
    aluBinary op a b s = .ok t ↔
      ∃ i j r, regIndex a = .ok i ∧ regIndex b = .ok j ∧ applyBinary op (s.reg i) (s.reg j) = .ok r ∧ t = s.setReg i r := by
  unfold aluBinary
  cases regIndex a <;> cases regIndex b <;> simp [bind_eq_ok]
  exact exists_congr fun r => and_congr_right fun _ => eq_comm

/-- Everything it can raise: the first bad index, else the zero divisor. -/
theorem aluBinary_eq_error {op : BinaryOp} {a b : Byte} {s : State} {f : Fault} :
    aluBinary op a b s = .error f ↔
      regIndex a = .error f ∨ (∃ i, regIndex a = .ok i ∧ regIndex b = .error f) ∨
        ∃ i j, regIndex a = .ok i ∧ regIndex b = .ok j ∧ applyBinary op (s.reg i) (s.reg j) = .error f := by
  unfold aluBinary
  cases regIndex a <;> cases regIndex b <;> simp [bind_eq_error]

/-- Everything a one-operand ALU instruction's handler can do when it completes (`44_alu.md` rule R170). -/
theorem aluUnary_eq_ok {op : UnaryOp} {a : Byte} {s t : State} :
    aluUnary op a s = .ok t ↔ ∃ i, regIndex a = .ok i ∧ t = s.setReg i (applyUnary op (s.reg i)) := by
  unfold aluUnary
  cases regIndex a <;> simp [eq_comm]

/-- Everything it can raise: the bad index. -/
theorem aluUnary_eq_error {op : UnaryOp} {a : Byte} {s : State} {f : Fault} :
    aluUnary op a s = .error f ↔ regIndex a = .error f := by
  unfold aluUnary
  cases regIndex a <;> simp

/-- An ALU operation raises only DivideByZero, only for DIV and MOD with a zero divisor (`60_exceptions.md` rule R213). -/
theorem applyBinary_eq_error {op : BinaryOp} {a b : Word} {f : Fault} :
    applyBinary op a b = .error f ↔
      b.toNat = 0 ∧ ((op = .div ∧ f = .divideByZero .div) ∨ (op = .mod ∧ f = .divideByZero .mod)) := by
  cases op <;> simp only [applyBinary] <;> first
    | simp; done
    | (split <;> simp_all [eq_comm])

end Sys2Proof.Machine
end

