-- ==== Sys2Proof/Laws/Flags.lean ====
section
/-!
SUPPORT. The value of the compare flags (`45_compare.md` rule R201).
-/

namespace Sys2Proof.Machine

theorem compareFlags_lt {a b : Word} (h : a.toNat < b.toNat) : compareFlags a b = 0b100#3 := by
  have h1 : ¬ a.toNat > b.toNat := by omega
  have h2 : ¬ a.toNat = b.toNat := by omega
  simp [compareFlags, compare, h, h1, h2, packFlags]

theorem compareFlags_gt {a b : Word} (h : b.toNat < a.toNat) : compareFlags a b = 0b010#3 := by
  have h1 : ¬ a.toNat < b.toNat := by omega
  have h2 : ¬ a.toNat = b.toNat := by omega
  simp [compareFlags, compare, h, h1, h2, packFlags]

@[simp] theorem compareFlags_self (a : Word) : compareFlags a a = 0b001#3 := by
  simp [compareFlags, compare, packFlags]

/-- A compare gives one of the three one-bit values, so `FL` keeps to its four (`10_state.md` rule R32). -/
theorem compareFlags_legal (a b : Word) : legalFlags (compareFlags a b) := by
  rcases Nat.lt_trichotomy a.toNat b.toNat with h | h | h
  · exact .inr (.inr (.inr (compareFlags_lt h)))
  · rw [BitVec.eq_of_toNat_eq h]
    exact .inr (.inl (compareFlags_self b))
  · exact .inr (.inr (.inl (compareFlags_gt h)))

end Sys2Proof.Machine
end

