-- ==== Sys2Proof/Laws/Exec.lean ====
section
/-!
SUPPORT. What each handler can do, said once (one lemma for its completion, one for what it raises), and what a step can
do in terms of them.
-/

namespace Sys2Proof.Machine

/-- The stack pointer after a push or a call. -/
abbrev State.grownSp (s : State) : Word := BitVec.ofNat 8 ((s.reg .sp).toNat - 1)

/-- The stack pointer after a pop or a return. -/
abbrev State.shrunkSp (s : State) : Word := BitVec.ofNat 8 ((s.reg .sp).toNat + 1)

theorem grownSp_toNat (s : State) : s.grownSp.toNat = (s.reg .sp).toNat - 1 := by
  have := (s.reg .sp).isLt
  rw [BitVec.toNat_ofNat]
  omega

theorem shrunkSp_toNat {s : State} (h : (s.reg .sp).toNat ≠ 255) : s.shrunkSp.toNat = (s.reg .sp).toNat + 1 := by
  have := (s.reg .sp).isLt
  rw [BitVec.toNat_ofNat]
  omega

/-! ### HLT, LDI, PRN -/

theorem handleHlt_eq (s : State) : handleHlt s = .ok (s.setRun .halted) := rfl

theorem handleLdi_eq_ok {a v : Byte} {s t : State} :
    handleLdi a v s = .ok t ↔ ∃ i, regIndex a = .ok i ∧ t = s.setReg i v := by
  unfold handleLdi
  cases regIndex a <;> simp [eq_comm]

theorem handleLdi_eq_error {a v : Byte} {s : State} {f : Fault} :
    handleLdi a v s = .error f ↔ regIndex a = .error f := by
  unfold handleLdi
  cases regIndex a <;> simp

theorem handlePrn_eq_ok {a : Byte} {s t : State} :
    handlePrn a s = .ok t ↔ ∃ i, regIndex a = .ok i ∧ t = s.emit (s.reg i) := by
  unfold handlePrn
  cases regIndex a <;> simp [eq_comm]

theorem handlePrn_eq_error {a : Byte} {s : State} {f : Fault} :
    handlePrn a s = .error f ↔ regIndex a = .error f := by
  unfold handlePrn
  cases regIndex a <;> simp

/-! ### PUSH and POP -/

theorem handlePush_eq_ok {a : Byte} {s t : State} :
    handlePush a s = .ok t ↔
      ∃ i, regIndex a = .ok i ∧ (s.reg .sp).toNat ≠ 0 ∧
        t = (s.setReg .sp s.grownSp).setByte ((s.reg .sp).toNat - 1) ((s.setReg .sp s.grownSp).reg i) := by
  unfold handlePush
  rw [stackGrow_eq]
  cases regIndex a <;> by_cases h : (s.reg .sp).toNat = 0 <;> simp [h, eq_comm, -BitVec.toNat_ofNat]
  rw [grownSp_toNat]

theorem handlePush_eq_error {a : Byte} {s : State} {f : Fault} :
    handlePush a s = .error f ↔
      regIndex a = .error f ∨
        ∃ i, regIndex a = .ok i ∧ (s.reg .sp).toNat = 0 ∧ f = .stackPointerOutOfRange (-1) := by
  unfold handlePush
  rw [stackGrow_eq]
  cases regIndex a <;> by_cases h : (s.reg .sp).toNat = 0 <;> simp [h, eq_comm]

theorem handlePop_eq_ok {a : Byte} {s t : State} :
    handlePop a s = .ok t ↔
      ∃ i u, regIndex a = .ok i ∧ u = s.setReg i (s.byteAt (s.reg .sp).toNat) ∧ (u.reg .sp).toNat ≠ 255 ∧
        t = u.setReg .sp u.shrunkSp := by
  unfold handlePop
  cases regIndex a with
  | error f => simp
  | ok i =>
    simp only [ok_bind, stackRead_eq, stackShrink_eq]
    split <;> simp_all [eq_comm]

theorem handlePop_eq_error {a : Byte} {s : State} {f : Fault} :
    handlePop a s = .error f ↔
      regIndex a = .error f ∨
        ∃ i, regIndex a = .ok i ∧ ((s.setReg i (s.byteAt (s.reg .sp).toNat)).reg .sp).toNat = 255 ∧
          f = .stackPointerOutOfRange 256 := by
  unfold handlePop
  cases regIndex a with
  | error f => simp
  | ok i =>
    simp only [ok_bind, stackRead_eq, stackShrink_eq]
    split <;> simp_all [eq_comm]

/-! ### CALL, RET and the jumps -/

theorem handleCall_eq_ok {a : Byte} {s t : State} :
    handleCall a s = .ok t ↔
      ∃ i, regIndex a = .ok i ∧ (s.reg .sp).toNat ≠ 0 ∧
        t = ((s.setReg .sp s.grownSp).setByte ((s.reg .sp).toNat - 1) (BitVec.ofNat 8 (s.pc + 2))).setPc
          ((s.setReg .sp s.grownSp).reg i).toNat := by
  unfold handleCall
  rw [stackGrow_eq]
  cases regIndex a <;> by_cases h : (s.reg .sp).toNat = 0 <;> simp [h, eq_comm, -BitVec.toNat_ofNat]
  rw [grownSp_toNat]

theorem handleCall_eq_error {a : Byte} {s : State} {f : Fault} :
    handleCall a s = .error f ↔
      regIndex a = .error f ∨
        ∃ i, regIndex a = .ok i ∧ (s.reg .sp).toNat = 0 ∧ f = .stackPointerOutOfRange (-1) := by
  unfold handleCall
  rw [stackGrow_eq]
  cases regIndex a <;> by_cases h : (s.reg .sp).toNat = 0 <;> simp [h, eq_comm]

theorem handleRet_eq_ok {s t : State} :
    handleRet s = .ok t ↔
      (s.reg .sp).toNat ≠ 255 ∧ t = (s.setReg .sp s.shrunkSp).setPc (s.byteAt (s.reg .sp).toNat).toNat := by
  unfold handleRet
  rw [stackShrink_eq]
  by_cases h : (s.reg .sp).toNat = 255 <;> simp [h, eq_comm]

theorem handleRet_eq_error {s : State} {f : Fault} :
    handleRet s = .error f ↔ (s.reg .sp).toNat = 255 ∧ f = .stackPointerOutOfRange 256 := by
  unfold handleRet
  rw [stackShrink_eq]
  by_cases h : (s.reg .sp).toNat = 255 <;> simp [h, eq_comm]

theorem jumpTo_eq_ok {a : Byte} {s t : State} :
    jumpTo a s = .ok t ↔ ∃ i, regIndex a = .ok i ∧ t = s.setPc (s.reg i).toNat := by
  unfold jumpTo
  cases regIndex a <;> simp [eq_comm]

theorem jumpTo_eq_error {a : Byte} {s : State} {f : Fault} : jumpTo a s = .error f ↔ regIndex a = .error f := by
  unfold jumpTo
  cases regIndex a <;> simp

theorem jumpIf_eq_ok {c : Bool} {a : Byte} {s t : State} :
    jumpIf c a s = .ok t ↔
      (c = true ∧ ∃ i, regIndex a = .ok i ∧ t = s.setPc (s.reg i).toNat) ∨ (c = false ∧ t = s.setPc (s.pc + 2)) := by
  unfold jumpIf
  cases c <;> simp [jumpTo_eq_ok]
  exact eq_comm

theorem jumpIf_eq_error {c : Bool} {a : Byte} {s : State} {f : Fault} :
    jumpIf c a s = .error f ↔ c = true ∧ regIndex a = .error f := by
  unfold jumpIf
  cases c <;> simp [jumpTo_eq_error]

/-! ### CMP -/

theorem handleCmp_eq_ok {a b : Byte} {s t : State} :
    handleCmp a b s = .ok t ↔
      ∃ i j, regIndex a = .ok i ∧ regIndex b = .ok j ∧ t = s.setFl (compareFlags (s.reg i) (s.reg j)) := by
  unfold handleCmp
  cases regIndex a <;> cases regIndex b <;> simp [eq_comm]

theorem handleCmp_eq_error {a b : Byte} {s : State} {f : Fault} :
    handleCmp a b s = .error f ↔ regIndex a = .error f ∨ ∃ i, regIndex a = .ok i ∧ regIndex b = .error f := by
  unfold handleCmp
  cases regIndex a <;> cases regIndex b <;> simp

/-! ### Every instruction -/

/-- The handler the dispatch table gives an instruction with its operands (`30_encoding.md` rule R87). -/
def handlerOf : Instr → Handler
  | .hlt => handleHlt
  | .ldi a v => handleLdi a v
  | .prn a => handlePrn a
  | .push a => handlePush a
  | .pop a => handlePop a
  | .call a => handleCall a
  | .ret => handleRet
  | .jmp a => jumpTo a
  | .jeq a => fun s => jumpIf s.flE a s
  | .jne a => fun s => jumpIf (!s.flE) a s
  | .add a b => aluBinary .add a b
  | .sub a b => aluBinary .sub a b
  | .mul a b => aluBinary .mul a b
  | .div a b => aluBinary .div a b
  | .mod a b => aluBinary .mod a b
  | .and a b => aluBinary .and a b
  | .or a b => aluBinary .or a b
  | .xor a b => aluBinary .xor a b
  | .shl a b => aluBinary .shl a b
  | .shr a b => aluBinary .shr a b
  | .inc a => aluUnary .inc a
  | .dec a => aluUnary .dec a
  | .cmp a b => handleCmp a b

/-- Every instruction is its handler with the engine around it (`40_engine_cycle.md` rule R110, steps 5 and 6). -/
theorem exec_eq_complete (i : Instr) (s : State) : exec i s = complete (opc i.mnemonic) (handlerOf i) s := by
  cases i <;> rfl

/-- Every instruction answers a next state, from every state. -/
theorem exec_answers_next (i : Instr) (s : State) : ∃ t, exec i s = .next t := by
  rw [exec_eq_complete]
  exact complete_next _ _ _

/-- An instruction completes with its handler's state advanced, or raises its handler's fault. -/
theorem exec_eq_next {i : Instr} {s u : State} :
    exec i s = .next u ↔
      (∃ t, handlerOf i s = .ok t ∧ u = advance (opc i.mnemonic) t) ∨
        ∃ f, handlerOf i s = .error f ∧ u = s.raise f := by
  rw [exec_eq_complete, complete_eq_next]

/-! ### The step -/

theorem step_running {s : State} (h : s.run = .running) : step s = cycle s := by simp [step, stepIn, h]

@[simp] theorem step_halted {s : State} (h : s.run = .halted) : step s = .next s := by simp [step, stepIn, h]

@[simp] theorem step_faulted {s : State} {f : Fault} (h : s.run = .faulted f) : step s = .fault f := by
  simp [step, stepIn, h]

/-- A pass with a fetch fault. -/
theorem cycle_of_fetch_error {s : State} {f : Fault} (h : fetch s = .error f) : cycle s = .next (s.raise f) := by
  unfold cycle
  rw [h]

/-- A pass at 0 to 253 with an unrecognized opcode. -/
theorem cycle_of_unrecognized {s : State} (hpc : s.pc ≤ 253) (h : lookup (s.byteAt s.pc) = none) :
    cycle s = .next (unsupported (s.byteAt s.pc) s) := by
  unfold cycle
  rw [fetch_eq_ok hpc]
  dsimp only
  rw [decode_of_unrecognized h]

/-- A pass at 0 to 253 whose bytes decode runs that instruction. -/
theorem cycle_of_decoded {s : State} {i : Instr} {rest : List Byte} (hpc : s.pc ≤ 253)
    (h : decode [s.byteAt s.pc, s.byteAt (s.pc + 1), s.byteAt (s.pc + 2)] = .ok (i, rest)) : cycle s = exec i s := by
  unfold cycle
  rw [fetch_eq_ok hpc]
  dsimp only
  rw [h]

/-- Everything a pass of the loop can do (`40_engine_cycle.md` rule R110): a fetch fault, an unrecognized opcode, or one
instruction. -/
theorem cycle_cases (s : State) :
    (253 < s.pc ∧ ∃ f, fetch s = .error f ∧ cycle s = .next (s.raise f)) ∨
    (s.pc ≤ 253 ∧ lookup (s.byteAt s.pc) = none ∧ cycle s = .next (unsupported (s.byteAt s.pc) s)) ∨
    (s.pc ≤ 253 ∧ ∃ i rest,
      decode [s.byteAt s.pc, s.byteAt (s.pc + 1), s.byteAt (s.pc + 2)] = .ok (i, rest) ∧ cycle s = exec i s) := by
  by_cases hpc : s.pc ≤ 253
  · right
    cases hl : lookup (s.byteAt s.pc) with
    | none => exact .inl ⟨hpc, rfl, cycle_of_unrecognized hpc hl⟩
    | some m =>
      obtain ⟨i, rest, hd, -⟩ := decode_three (a := s.byteAt (s.pc + 1)) (b := s.byteAt (s.pc + 2)) hl
      exact .inr ⟨hpc, i, rest, hd, cycle_of_decoded hpc hd⟩
  · have hf := fetch_eq_error (s := s) (by omega)
    exact .inl ⟨by omega, _, hf, cycle_of_fetch_error hf⟩

end Sys2Proof.Machine
end

