-- ==== Sys2Proof/Laws/Frames.lean ====
section
/-!
SUPPORT. The frame vocabulary of Safety.lean for the states that completed handlers leave.
-/

namespace Sys2Proof.Machine

/-- An instruction whose handler completes answers the handler's state, advanced. -/
theorem exec_of_ok {i : Instr} {s t : State} (h : handlerOf i s = .ok t) :
    exec i s = .next (advance (opc i.mnemonic) t) := by
  rw [exec_eq_complete]
  exact complete_of_ok h

/-- An instruction whose handler raises answers the raised state. -/
theorem exec_of_error {i : Instr} {s : State} {f : Fault} (h : handlerOf i s = .error f) :
    exec i s = .next (s.raise f) := by
  rw [exec_eq_complete]
  exact complete_of_error h

/-- Where step 6 puts `pc` after an instruction (`10_state.md` rule R28). -/
theorem advance_pc_of_instr (i : Instr) (s : State) :
    (advance (opc i.mnemonic) s).pc =
      if i.mnemonic ∈ [.call, .ret, .jmp, .jeq, .jne] then s.pc else s.pc + i.operands.length + 1 := by
  rw [advance_pc, pcIsSetByHandler_opc, operandCount_opc]
  simp only [decide_eq_true_eq]

/-- The frame of a register write followed by the advance past an instruction. -/
theorem wroteRegister_of_setReg (i : Instr) (s : State) (d : Reg) (v : Word)
    (h : i.mnemonic ∉ [.call, .ret, .jmp, .jeq, .jne]) :
    WroteRegister d v.toNat (i.operands.length + 1) s (advance (opc i.mnemonic) (s.setReg d v)) where
  value := by simp
  regs := fun r hr => by
    rw [advance_reg, setReg_reg_ne s v (by simpa using hr)]
  pc := by
    rw [advance_pc_of_instr, if_neg h, setReg_pc, Nat.add_assoc]
  fl := by simp
  run := by simp
  memory := fun a => by simp
  events := ⟨by simp, by simp, by simp⟩

/-- The frame of a jump. -/
theorem onlyPc_of_setPc (i : Instr) (s : State) (t : Nat) (h : i.mnemonic ∈ [.call, .ret, .jmp, .jeq, .jne]) :
    OnlyPc t s (advance (opc i.mnemonic) (s.setPc t)) where
  regs := fun r _ => by simp
  pc := by rw [advance_pc_of_instr, if_pos h, setPc_pc]
  fl := by simp
  run := by simp
  memory := fun a => by simp
  events := ⟨by simp, by simp, by simp⟩

/-- The cells after the stack pointer moved down and a byte was stored there. -/
theorem byteAt_of_push {s : State} (hm : s.mem.wf) (v : Byte) (c : Nat) :
    ((s.setReg .sp s.grownSp).setByte ((s.reg .sp).toNat - 1) v).byteAt c =
      if c = (s.reg .sp).toNat - 1 then v else s.byteAt c :=
  setByte_byteAt (s := s.setReg .sp s.grownSp) v hm c

/-- The frame of a byte stored below the stack pointer. -/
theorem pushedByte_of_push {s : State} (hm : s.mem.wf) (v : Byte) (p : Nat) :
    PushedByte ((s.reg .sp).toNat - 1) v p s
      (((s.setReg .sp s.grownSp).setByte ((s.reg .sp).toNat - 1) v).setPc p) where
  sp := by rw [setPc_reg, setByte_reg, setReg_reg_self, grownSp_toNat]
  stored := by rw [setPc_byteAt, byteAt_of_push hm, if_pos rfl]
  memory := fun c hc => by rw [setPc_byteAt, byteAt_of_push hm, if_neg hc]
  regs := fun r hr => by rw [setPc_reg, setByte_reg, setReg_reg_ne _ _ (by simpa using hr)]
  pc := rfl
  fl := rfl
  run := rfl
  events := ⟨rfl, rfl, rfl⟩

/-- An advance only moves `pc`: past the instruction, unless its handler has set it. -/
theorem advance_eq_setPc (i : Instr) (s : State) :
    advance (opc i.mnemonic) s =
      s.setPc (if i.mnemonic ∈ [.call, .ret, .jmp, .jeq, .jne] then s.pc else s.pc + i.operands.length + 1) := by
  rw [← advance_pc_of_instr]
  unfold advance
  split <;> rfl

end Sys2Proof.Machine
end

