-- ==== Sys2Proof/Laws/PerInstr.lean ====
section
/-!
SUPPORT. The family OpcodeFields: what the opcode bits of each instruction say (`30_encoding.md` rules R80, R85 and R87), one
lemma per constructor of Instr.
-/

namespace Sys2Proof.Laws.OpcodeFields

/-- The dispatch table gives the instruction back from its opcode and operands, bits 7:6 count its operand bytes, bit 5 is
set exactly for the ALU class, bit 4 exactly for the five control transfers. -/
def Statement (i : Instr) : Prop :=
  lookup (opc i.mnemonic) = some i.mnemonic ∧
  i.mnemonic.withOperands (i.operands.getD 0 0) (i.operands.getD 1 0) = i ∧
  operandCount (opc i.mnemonic) = i.operands.length ∧
  aluClass (opc i.mnemonic) =
    decide (i.mnemonic ∈ [.add, .sub, .mul, .div, .mod, .and, .or, .xor, .shl, .shr, .inc, .dec, .cmp]) ∧
  pcIsSetByHandler (opc i.mnemonic) = decide (i.mnemonic ∈ [.call, .ret, .jmp, .jeq, .jne])

theorem hlt : Statement .hlt := ⟨lookup_opc _, rfl, operandCount_opc _, aluClass_opc _, pcIsSetByHandler_opc _⟩
theorem ldi (a b : Byte) : Statement (.ldi a b) := ⟨lookup_opc _, rfl, operandCount_opc _, aluClass_opc _, pcIsSetByHandler_opc _⟩
theorem prn (a : Byte) : Statement (.prn a) := ⟨lookup_opc _, rfl, operandCount_opc _, aluClass_opc _, pcIsSetByHandler_opc _⟩
theorem push (a : Byte) : Statement (.push a) := ⟨lookup_opc _, rfl, operandCount_opc _, aluClass_opc _, pcIsSetByHandler_opc _⟩
theorem pop (a : Byte) : Statement (.pop a) := ⟨lookup_opc _, rfl, operandCount_opc _, aluClass_opc _, pcIsSetByHandler_opc _⟩
theorem call (a : Byte) : Statement (.call a) := ⟨lookup_opc _, rfl, operandCount_opc _, aluClass_opc _, pcIsSetByHandler_opc _⟩
theorem ret : Statement .ret := ⟨lookup_opc _, rfl, operandCount_opc _, aluClass_opc _, pcIsSetByHandler_opc _⟩
theorem jmp (a : Byte) : Statement (.jmp a) := ⟨lookup_opc _, rfl, operandCount_opc _, aluClass_opc _, pcIsSetByHandler_opc _⟩
theorem jeq (a : Byte) : Statement (.jeq a) := ⟨lookup_opc _, rfl, operandCount_opc _, aluClass_opc _, pcIsSetByHandler_opc _⟩
theorem jne (a : Byte) : Statement (.jne a) := ⟨lookup_opc _, rfl, operandCount_opc _, aluClass_opc _, pcIsSetByHandler_opc _⟩
theorem add (a b : Byte) : Statement (.add a b) := ⟨lookup_opc _, rfl, operandCount_opc _, aluClass_opc _, pcIsSetByHandler_opc _⟩
theorem sub (a b : Byte) : Statement (.sub a b) := ⟨lookup_opc _, rfl, operandCount_opc _, aluClass_opc _, pcIsSetByHandler_opc _⟩
theorem mul (a b : Byte) : Statement (.mul a b) := ⟨lookup_opc _, rfl, operandCount_opc _, aluClass_opc _, pcIsSetByHandler_opc _⟩
theorem div (a b : Byte) : Statement (.div a b) := ⟨lookup_opc _, rfl, operandCount_opc _, aluClass_opc _, pcIsSetByHandler_opc _⟩
theorem mod (a b : Byte) : Statement (.mod a b) := ⟨lookup_opc _, rfl, operandCount_opc _, aluClass_opc _, pcIsSetByHandler_opc _⟩
theorem and (a b : Byte) : Statement (.and a b) := ⟨lookup_opc _, rfl, operandCount_opc _, aluClass_opc _, pcIsSetByHandler_opc _⟩
theorem or (a b : Byte) : Statement (.or a b) := ⟨lookup_opc _, rfl, operandCount_opc _, aluClass_opc _, pcIsSetByHandler_opc _⟩
theorem xor (a b : Byte) : Statement (.xor a b) := ⟨lookup_opc _, rfl, operandCount_opc _, aluClass_opc _, pcIsSetByHandler_opc _⟩
theorem shl (a b : Byte) : Statement (.shl a b) := ⟨lookup_opc _, rfl, operandCount_opc _, aluClass_opc _, pcIsSetByHandler_opc _⟩
theorem shr (a b : Byte) : Statement (.shr a b) := ⟨lookup_opc _, rfl, operandCount_opc _, aluClass_opc _, pcIsSetByHandler_opc _⟩
theorem inc (a : Byte) : Statement (.inc a) := ⟨lookup_opc _, rfl, operandCount_opc _, aluClass_opc _, pcIsSetByHandler_opc _⟩
theorem dec (a : Byte) : Statement (.dec a) := ⟨lookup_opc _, rfl, operandCount_opc _, aluClass_opc _, pcIsSetByHandler_opc _⟩
theorem cmp (a b : Byte) : Statement (.cmp a b) := ⟨lookup_opc _, rfl, operandCount_opc _, aluClass_opc _, pcIsSetByHandler_opc _⟩

end Sys2Proof.Laws.OpcodeFields
end

