-- ==== Sys2Proof/Laws/Steps.lean ====
section
/-!
SUPPORT. What any handler can do and raise, and what any step can do, said once.
-/

namespace Sys2Proof.Machine

/-- Everything a completed handler can do to the parts of the state other than the registers: only HLT sets the engine
state, only PRN emits, only PUSH and CALL store (one cell), only CMP writes the flags, and the five handlers that set
`pc` leave a byte, or `pc + 2`. -/
theorem handler_ok_frame {i : Instr} {s t : State} (h : handlerOf i s = .ok t) :
    (t.unsupportedPolicy = s.unsupportedPolicy ∧ t.skipReports = s.skipReports) ∧
    (t.run = s.run ∨ (i = .hlt ∧ t.run = .halted)) ∧
    (t.out = s.out ∨ ∃ a r, i = .prn a ∧ regIndex a = .ok r ∧ t.out = s.out ++ [s.reg r]) ∧
    (t.mem = s.mem ∨ ((i.mnemonic = .push ∨ i.mnemonic = .call) ∧ (s.reg .sp).toNat ≠ 0 ∧
      ∃ v, t.mem = s.mem.set ((s.reg .sp).toNat - 1) v)) ∧
    (t.fl = s.fl ∨ ((∃ a b, i = .cmp a b) ∧ legalFlags t.fl)) ∧
    (i.mnemonic ∉ [.call, .ret, .jmp, .jeq, .jne] → t.pc = s.pc) ∧
    (i.mnemonic ∈ [.call, .ret, .jmp, .jeq, .jne] → t.pc ≤ 255 ∨ t.pc = s.pc + 2) := by
  have b : ∀ (w : Word), w.toNat ≤ 255 := fun w => by have := w.isLt; omega
  cases i <;> simp only [handlerOf] at h
  case hlt => cases h; simp [Instr.mnemonic]
  case ldi => obtain ⟨_, _, rfl⟩ := handleLdi_eq_ok.1 h; simp [Instr.mnemonic]
  case prn =>
    obtain ⟨r, hr, rfl⟩ := handlePrn_eq_ok.1 h; simp [Instr.mnemonic]
    exact ⟨r, hr, rfl⟩
  case push => obtain ⟨r, hr, h0, rfl⟩ := handlePush_eq_ok.1 h; simp [Instr.mnemonic, h0]
  case pop => obtain ⟨r, u, hr, rfl, h0, rfl⟩ := handlePop_eq_ok.1 h; simp [Instr.mnemonic]
  case call => obtain ⟨r, hr, h0, rfl⟩ := handleCall_eq_ok.1 h; simp [Instr.mnemonic, h0]; left; exact b _
  case ret => obtain ⟨h0, rfl⟩ := handleRet_eq_ok.1 h; simp [Instr.mnemonic]; left; exact b _
  case jmp => obtain ⟨_, h0, rfl⟩ := jumpTo_eq_ok.1 h; simp [Instr.mnemonic]; left; exact b _
  case jeq => obtain ⟨_, _, h0, rfl⟩ | ⟨_, rfl⟩ := jumpIf_eq_ok.1 h <;> simp [Instr.mnemonic]; left; exact b _
  case jne => obtain ⟨_, _, h0, rfl⟩ | ⟨_, rfl⟩ := jumpIf_eq_ok.1 h <;> simp [Instr.mnemonic]; left; exact b _
  case inc => obtain ⟨_, h0, rfl⟩ := aluUnary_eq_ok.1 h; simp [Instr.mnemonic]
  case dec => obtain ⟨_, h0, rfl⟩ := aluUnary_eq_ok.1 h; simp [Instr.mnemonic]
  case cmp => obtain ⟨_, _, _, h0, rfl⟩ := handleCmp_eq_ok.1 h; simp [Instr.mnemonic, compareFlags_legal]
  all_goals
    obtain ⟨_, _, _, _, _, _, rfl⟩ := aluBinary_eq_ok.1 h; simp [Instr.mnemonic]

/-- A byte that names a register is below 8. -/
theorem regIndex_ok_lt {a : Byte} {r : Reg} (h : regIndex a = .ok r) : a.toNat < 8 := by
  by_contra hh; replace hh : 8 ≤ a.toNat := by omega
  rw [regIndex_of_le hh] at h; cases h

/-- A completed handler used no byte of 8 or more as a register index (`60_exceptions.md` rule R212). -/
theorem handler_ok_regs {i : Instr} {s t : State} (h : handlerOf i s = .ok t) :
    ∀ c ∈ Instr.usedRegisterBytes i s, c.toNat < 8 := by
  cases i <;> simp only [handlerOf] at h <;> simp only [Instr.usedRegisterBytes]
  case hlt => simp
  case ldi => obtain ⟨_, h0, rfl⟩ := handleLdi_eq_ok.1 h; simpa using regIndex_ok_lt h0
  case prn => obtain ⟨_, h0, rfl⟩ := handlePrn_eq_ok.1 h; simpa using regIndex_ok_lt h0
  case push => obtain ⟨r, hr, h0, rfl⟩ := handlePush_eq_ok.1 h; simpa using regIndex_ok_lt hr
  case pop => obtain ⟨r, u, hr, rfl, h0, rfl⟩ := handlePop_eq_ok.1 h; simpa using regIndex_ok_lt hr
  case call => obtain ⟨r, hr, h0, rfl⟩ := handleCall_eq_ok.1 h; simpa using regIndex_ok_lt hr
  case ret => simp
  case jmp => obtain ⟨_, h0, rfl⟩ := jumpTo_eq_ok.1 h; simpa using regIndex_ok_lt h0
  case jeq =>
    obtain ⟨hc, _, h0, rfl⟩ | ⟨hc, rfl⟩ := jumpIf_eq_ok.1 h
    · simpa [hc] using regIndex_ok_lt h0
    · simp [hc]
  case jne =>
    obtain ⟨hc, _, h0, rfl⟩ | ⟨hc, rfl⟩ := jumpIf_eq_ok.1 h
    · simp at hc; simpa [hc] using regIndex_ok_lt h0
    · simp at hc; simp [hc]
  case inc => obtain ⟨_, h0, rfl⟩ := aluUnary_eq_ok.1 h; simpa using regIndex_ok_lt h0
  case dec => obtain ⟨_, h0, rfl⟩ := aluUnary_eq_ok.1 h; simpa using regIndex_ok_lt h0
  case cmp => obtain ⟨_, _, h1, h0, rfl⟩ := handleCmp_eq_ok.1 h; simpa using ⟨regIndex_ok_lt h1, regIndex_ok_lt h0⟩
  all_goals
    obtain ⟨_, _, _, h1, h0, _, rfl⟩ := aluBinary_eq_ok.1 h; simpa using ⟨regIndex_ok_lt h1, regIndex_ok_lt h0⟩

/-- Everything a handler can raise: the first byte that names no register; with good bytes, a zero divisor or a stack
pointer that would leave 0 to 255 (`60_exceptions.md` rules R212, R213 and R217). -/
theorem handler_error_cases {i : Instr} {s : State} {f : Fault} (h : handlerOf i s = .error f) :
    (∃ b, f = .regOutOfRange b ∧ (Instr.usedRegisterBytes i s).find? (fun c => decide (8 ≤ c.toNat)) = some b) ∨
    ((∀ c ∈ Instr.usedRegisterBytes i s, c.toNat < 8) ∧
      ((∃ d, f = .divideByZero d) ∨
       ((i.mnemonic = .push ∨ i.mnemonic = .call) ∧ s.reg .sp = 0 ∧ f = .stackPointerOutOfRange (-1)) ∨
       (i.mnemonic = .ret ∧ (s.reg .sp).toNat = 255 ∧ f = .stackPointerOutOfRange 256) ∨
       (∃ a, i = .pop a ∧ f = .stackPointerOutOfRange 256 ∧
        ((regIndex a ≠ .ok .sp ∧ (s.reg .sp).toNat = 255) ∨
          (regIndex a = .ok .sp ∧ (s.byteAt (s.reg .sp).toNat).toNat = 255))))) := by
  have z : (s.reg .sp).toNat = 0 → s.reg .sp = 0 := fun h => BitVec.eq_of_toNat_eq h
  cases i <;> simp only [handlerOf] at h <;> simp only [Instr.usedRegisterBytes]
  case hlt => cases h
  case ldi => obtain ⟨rfl, hb⟩ := regIndex_eq_error.1 (handleLdi_eq_error.1 h); left; simp [hb]
  case prn => obtain ⟨rfl, hb⟩ := regIndex_eq_error.1 (handlePrn_eq_error.1 h); left; simp [hb]
  case push =>
    rcases handlePush_eq_error.1 h with h | ⟨r, hr, h0, rfl⟩
    · obtain ⟨rfl, hb⟩ := regIndex_eq_error.1 h; left; simp [hb]
    · right; refine ⟨by simpa using regIndex_ok_lt hr, ?_⟩; right; left; exact ⟨.inl rfl, z h0, rfl⟩
  case call =>
    rcases handleCall_eq_error.1 h with h | ⟨r, hr, h0, rfl⟩
    · obtain ⟨rfl, hb⟩ := regIndex_eq_error.1 h; left; simp [hb]
    · right; refine ⟨by simpa using regIndex_ok_lt hr, ?_⟩; right; left; exact ⟨.inr rfl, z h0, rfl⟩
  case pop a =>
    rcases handlePop_eq_error.1 h with h | ⟨r, hr, h0, rfl⟩
    · obtain ⟨rfl, hb⟩ := regIndex_eq_error.1 h; left; simp [hb]
    · right; refine ⟨by simpa using regIndex_ok_lt hr, ?_⟩; right; right; right
      refine ⟨a, rfl, rfl, ?_⟩
      rw [setReg_reg] at h0
      by_cases hs : Reg.sp = r
      · right; rw [if_pos hs] at h0; exact ⟨hs ▸ hr, h0⟩
      · left; rw [if_neg hs] at h0; refine ⟨?_, h0⟩; rw [hr]; simpa using fun h => hs h.symm
  case ret =>
    obtain ⟨h0, rfl⟩ := handleRet_eq_error.1 h
    right; refine ⟨by simp, ?_⟩; right; right; left; exact ⟨rfl, h0, rfl⟩
  case jmp => obtain ⟨rfl, hb⟩ := regIndex_eq_error.1 (jumpTo_eq_error.1 h); left; simp [hb]
  case jeq => obtain ⟨hc, h⟩ := jumpIf_eq_error.1 h; obtain ⟨rfl, hb⟩ := regIndex_eq_error.1 h; left; simp [hb, hc]
  case jne => obtain ⟨hc, h⟩ := jumpIf_eq_error.1 h; obtain ⟨rfl, hb⟩ := regIndex_eq_error.1 h; left; simp at hc; simp [hb, hc]
  case inc => obtain ⟨rfl, hb⟩ := regIndex_eq_error.1 (aluUnary_eq_error.1 h); left; simp [hb]
  case dec => obtain ⟨rfl, hb⟩ := regIndex_eq_error.1 (aluUnary_eq_error.1 h); left; simp [hb]
  case cmp =>
    rcases handleCmp_eq_error.1 h with h | ⟨r, h1, h⟩
    · obtain ⟨rfl, hb⟩ := regIndex_eq_error.1 h; left; simp [hb]
    · obtain ⟨rfl, hb⟩ := regIndex_eq_error.1 h; left; have := regIndex_ok_lt h1; simp [hb, this]
  all_goals
    rcases aluBinary_eq_error.1 h with h | ⟨r, h1, h⟩ | ⟨r, q, h1, h2, h⟩
    · obtain ⟨rfl, hb⟩ := regIndex_eq_error.1 h; left; simp [hb]
    · obtain ⟨rfl, hb⟩ := regIndex_eq_error.1 h; left; have := regIndex_ok_lt h1; simp [hb, this]
    · right
      refine ⟨by simpa using ⟨regIndex_ok_lt h1, regIndex_ok_lt h2⟩, .inl ?_⟩
      obtain ⟨_, ⟨_, rfl⟩ | ⟨_, rfl⟩⟩ := applyBinary_eq_error.1 h <;> exact ⟨_, rfl⟩

/-- An instruction whose handler completes does not leave a running core faulted. -/
theorem run_of_completed {i : Instr} {s u : State} (hr : s.run = .running) (hu : handlerOf i s = .ok u) (f : Fault) :
    (advance (opc i.mnemonic) u).run ≠ .faulted f := by
  obtain ⟨-, hrun, -⟩ := handler_ok_frame hu
  rw [advance_run]
  rcases hrun with h | ⟨-, h⟩ <;> rw [h]
  · rw [hr]; simp
  · simp

/-- Everything a step that answers a next state can have done. -/
theorem step_cases {s t : State} (h : step s = .next t) :
    (s.run = .halted ∧ t = s) ∨
    (s.run = .running ∧
      ((∃ f, t = s.raise f ∧ fetch s = .error f ∧ 253 < s.pc) ∨
        (s.pc ≤ 253 ∧ lookup (s.byteAt s.pc) = none ∧ t = unsupported (s.byteAt s.pc) s) ∨
        (s.pc ≤ 253 ∧ ∃ i rest,
          decode [s.byteAt s.pc, s.byteAt (s.pc + 1), s.byteAt (s.pc + 2)] = .ok (i, rest) ∧
          ((∃ u, handlerOf i s = .ok u ∧ t = advance (opc i.mnemonic) u) ∨
            ∃ f, handlerOf i s = .error f ∧ t = s.raise f)))) := by
  cases hr : s.run with
  | halted => rw [step_halted hr] at h; cases h; exact .inl ⟨rfl, rfl⟩
  | faulted f => rw [step_faulted hr] at h; cases h
  | running =>
    right; refine ⟨rfl, ?_⟩
    rw [step_running hr] at h
    rcases cycle_cases s with ⟨h1, f, hf, hc⟩ | ⟨h1, h2, hc⟩ | ⟨h1, i, rest, hd, hc⟩ <;> rw [hc] at h
    · cases h; exact .inl ⟨f, rfl, hf, h1⟩
    · cases h; exact .inr (.inl ⟨h1, h2, rfl⟩)
    · exact .inr (.inr ⟨h1, i, rest, hd, exec_eq_next.1 h⟩)

/-- What an unrecognized opcode leaves alone under either policy. -/
theorem unsupported_frame {ir : Byte} {s : State} :
    (unsupported ir s).mem = s.mem ∧ (unsupported ir s).regs = s.regs ∧ (unsupported ir s).out = s.out ∧
      (unsupported ir s).fl = s.fl ∧ (unsupported ir s).unsupportedPolicy = s.unsupportedPolicy := by
  unfold unsupported
  split <;> exact ⟨rfl, rfl, rfl, rfl, rfl⟩


end Sys2Proof.Machine
end

