-- ==== Sys2Proof/Tests/Slice0.lean ====
section
/-!
SUPPORT. The model's own tests. Expected results are those of `95_test_vectors.md` (named V n.m in the docstrings), of the tables of
`30_encoding.md`, or worked out by hand from a rule that is named. After them, for every obligation with hypotheses, a
witness that meets them, at a boundary value for each clause.
-/

namespace Sys2Proof.Tests

open Sys2Proof.Machine

/-! ## Helpers -/

/-- The reset state with bytes placed at an address and `pc` there. -/
def start (pc : Nat) (bytes : List Byte) : State := { State.reset with pc := pc, mem := Memory.place [] pc bytes }

/-- A cell preset. -/
def withCell (s : State) (a : Nat) (v : Byte) : State := { s with mem := s.mem.set a v }

/-- One step, and what is read off the state it answers. -/
def after {α : Type} (s : State) (read : State → α) : Option α :=
  match step s with
  | .next t => some (read t)
  | _ => none

/-- One instruction, and what is read off the state it answers. -/
def afterExec {α : Type} (i : Instr) (s : State) (read : State → α) : Option α :=
  match exec i s with
  | .next t => some (read t)
  | _ => none

/-- What is read off the state after a load over the reset state. -/
def afterLoad {α : Type} (image : List Byte) (read : State → α) : Option α :=
  match State.reset.load image with
  | .next t => some (read t)
  | _ => none

/-- The memory, registers, `pc` and flags of a state: what a fault must leave alone. -/
def body (s : State) : RegFile × Nat × BitVec 3 × Memory × List Byte := (s.regs, s.pc, s.fl, s.mem, s.out)

/-- The state after a step is faulted with this cause and nothing else changed. -/
def faultsWith (s : State) (f : Fault) : Bool := after s (fun t => (t.run, body t)) == some (.faulted f, body s)

/-! ## Well-formedness: an ill-formed term for each shape (`30_encoding.md` rule R84) -/

theorem test_illFormed_ldi : (Instr.ldi 8 0).wellFormed = false := by decide
theorem test_illFormed_oneRegister :
    (Instr.prn 8).wellFormed = false ∧ (Instr.push 255).wellFormed = false ∧ (Instr.pop 9).wellFormed = false ∧
      (Instr.call 8).wellFormed = false ∧ (Instr.jmp 16).wellFormed = false ∧ (Instr.jeq 8).wellFormed = false ∧
      (Instr.jne 8).wellFormed = false ∧ (Instr.inc 8).wellFormed = false ∧ (Instr.dec 128).wellFormed = false := by
  decide
theorem test_illFormed_firstOfTwo :
    (Instr.add 8 0).wellFormed = false ∧ (Instr.sub 8 0).wellFormed = false ∧ (Instr.mul 8 0).wellFormed = false ∧
      (Instr.div 8 0).wellFormed = false ∧ (Instr.mod 8 0).wellFormed = false ∧ (Instr.cmp 8 0).wellFormed = false := by
  decide
theorem test_illFormed_secondOfTwo :
    (Instr.and 0 8).wellFormed = false ∧ (Instr.or 0 8).wellFormed = false ∧ (Instr.xor 0 8).wellFormed = false ∧
      (Instr.shl 0 8).wellFormed = false ∧ (Instr.shr 0 8).wellFormed = false ∧ (Instr.cmp 0 8).wellFormed = false := by
  decide
/-- The immediate of LDI is not a register index. -/
theorem test_wellFormed_ldi : (Instr.ldi 7 255).wellFormed = true := by decide

/-! ## Decoding: the words of `30_encoding.md` rule R86, bit by bit -/

theorem test_decode_system_and_move :
    decode [0b00000001#8] = .ok (.hlt, []) ∧
    decode [0b10000010#8, 0b00000011#8, 0b00101010#8] = .ok (.ldi 3 42, []) ∧
    decode [0b01000111#8, 0b00000111#8] = .ok (.prn 7, []) := by decide
theorem test_decode_stack :
    decode [0b01000101#8, 0b00000110#8] = .ok (.push 6, []) ∧
    decode [0b01000110#8, 0b00000010#8] = .ok (.pop 2, []) := by decide
theorem test_decode_control :
    decode [0b01010000#8, 0b00000001#8] = .ok (.call 1, []) ∧
    decode [0b00010001#8] = .ok (.ret, []) ∧
    decode [0b01010100#8, 0b00000010#8] = .ok (.jmp 2, []) ∧
    decode [0b01010101#8, 0b00000011#8] = .ok (.jeq 3, []) ∧
    decode [0b01010110#8, 0b00000100#8] = .ok (.jne 4, []) := by decide
theorem test_decode_arithmetic :
    decode [0b10100000#8, 0b00000000#8, 0b00000001#8] = .ok (.add 0 1, []) ∧
    decode [0b10100001#8, 0b00000001#8, 0b00000010#8] = .ok (.sub 1 2, []) ∧
    decode [0b10100010#8, 0b00000010#8, 0b00000011#8] = .ok (.mul 2 3, []) ∧
    decode [0b10100011#8, 0b00000011#8, 0b00000100#8] = .ok (.div 3 4, []) ∧
    decode [0b10100100#8, 0b00000100#8, 0b00000101#8] = .ok (.mod 4 5, []) ∧
    decode [0b01100101#8, 0b00000101#8] = .ok (.inc 5, []) ∧
    decode [0b01100110#8, 0b00000110#8] = .ok (.dec 6, []) := by decide
theorem test_decode_bitwise :
    decode [0b10101000#8, 0b00000101#8, 0b00000110#8] = .ok (.and 5 6, []) ∧
    decode [0b10101010#8, 0b00000110#8, 0b00000111#8] = .ok (.or 6 7, []) ∧
    decode [0b10101011#8, 0b00000111#8, 0b00000000#8] = .ok (.xor 7 0, []) ∧
    decode [0b10101100#8, 0b00000001#8, 0b00000011#8] = .ok (.shl 1 3, []) ∧
    decode [0b10101101#8, 0b00000011#8, 0b00000001#8] = .ok (.shr 3 1, []) := by decide
theorem test_decode_compare : decode [0b10100111#8, 0b00000010#8, 0b00000101#8] = .ok (.cmp 2 5, []) := by decide
/-- The unrecognized bytes of table V1, rejected by name. -/
theorem test_decode_unrecognized :
    ∀ b ∈ [0x00#8, 0x69#8, 0xA5#8, 0xA9#8, 0x83#8, 0x84#8, 0x57#8, 0xC0#8, 0xFF#8],
      decode [b, 0, 0] = .error (.unrecognized b) := by decide
/-- A byte after the instruction is handed back; a missing operand and no bytes at all are rejected by name. -/
theorem test_decode_rest :
    decode [0x65#8, 0x00#8, 0xFF#8] = .ok (.inc 0, [0xFF#8]) ∧ decode [0xA0#8, 0x00#8] = .error (.truncated 0xA0) ∧
      decode [] = .error .noBytes := by decide
/-- The three bit fields of ADD and of CALL (table V1). -/
theorem test_opcode_fields :
    (operandCount 0xA0, aluClass 0xA0, pcIsSetByHandler 0xA0) = (2, true, false) ∧
      (operandCount 0x50, aluClass 0x50, pcIsSetByHandler 0x50) = (1, false, true) ∧ identityNibble 0xAD = 13 := by decide
/-- P1 of part 3: the encoding of a whole small program. -/
theorem test_encode_program :
    [Instr.ldi 0 8, .ldi 1 9, .mul 0 1, .prn 0, .hlt].flatMap encode =
      [0x82, 0x00, 0x08, 0x82, 0x01, 0x09, 0xA2, 0x00, 0x01, 0x47, 0x00, 0x01] := by decide
/-- A table word is laid out first byte lowest; bits from `nbits` up are 0. -/
theorem test_table_word :
    decodeTableWord 24 0x2A0382 = some (.ldi 3 42) ∧ decodeTableWord 8 0xFFFF82 = some (.ldi 0 0) ∧
      decodeTableWord 8 0 = none := by decide
theorem test_asm :
    (Instr.ldi 0 8).asm? = some "LDI R0, 8" ∧ (Instr.mul 0 1).asm? = some "MUL R0, R1" ∧ Instr.hlt.asm? = some "HLT" ∧
      (Instr.prn 8).asm? = none := by decide

/-! ## One step of each instruction -/

/-- V3.1. -/
theorem test_hlt : after (start 0 [0x01]) (fun t => (t.run, t.pc)) = some (.halted, 1) := by decide
/-- V2.1. -/
theorem test_hlt_last : after (start 253 [0x01]) (fun t => (t.run, t.pc)) = some (.halted, 254) := by decide
/-- V3.3 and V3.5: the stack pointer is a destination like any other; the immediate is not checked. -/
theorem test_ldi :
    after (start 0 [0x82, 0x07, 0x80]) (fun t => (t.reg .sp, t.pc)) = some (0x80, 3) ∧
      after (start 0 [0x82, 0x00, 0x08]) (fun t => t.reg .r0) = some 8 := by decide
/-- V3.4. -/
theorem test_ldi_fault : faultsWith (start 0 [0x82, 0x08, 0x01]) (.regOutOfRange 8) = true := by decide
/-- V3.6 and V3.7. -/
theorem test_prn :
    after ((start 0 [0x47, 0x00]).setReg .r0 72) (fun t => (t.out, t.pc)) = some ([72], 2) ∧
      after ((start 0 [0x47, 0x07]).emit 1) (fun t => t.out) = some ([1, 244]) := by decide
/-- V3.8. -/
theorem test_prn_fault : faultsWith (start 0 [0x47, 0x09]) (.regOutOfRange 9) = true := by decide
/-- V4.1, V4.6 and V4.7. -/
theorem test_push :
    after ((start 0 [0x45, 0x00]).setReg .r0 9) (fun t => (t.reg .sp, t.byteAt 0xF3, t.pc)) = some (0xF3, 9, 2) ∧
      after (((start 0 [0x45, 0x00]).setReg .r0 0xAB).setReg .sp 1) (fun t => (t.reg .sp, t.byteAt 0)) = some (0, 0xAB) ∧
      after (start 0 [0x45, 0x07]) (fun t => (t.reg .sp, t.byteAt 0xF3)) = some (0xF3, 0xF3) := by decide
/-- V4.3 and V4.10. -/
theorem test_push_fault :
    faultsWith ((start 0 [0x45, 0x00]).setReg .sp 0) (.stackPointerOutOfRange (-1)) = true ∧
      faultsWith ((start 0 [0x45, 0x08]).setReg .sp 0) (.regOutOfRange 8) = true := by decide
/-- V4.2, V4.5 and V4.8. -/
theorem test_pop :
    after (withCell ((start 0 [0x46, 0x02]).setReg .sp 0xF3) 0xF3 9)
        (fun t => (t.reg .r2, t.reg .sp, t.byteAt 0xF3, t.pc)) = some (9, 0xF4, 9, 2) ∧
      after (withCell ((start 0 [0x46, 0x00]).setReg .sp 254) 254 5) (fun t => (t.reg .r0, t.reg .sp)) = some (5, 255) ∧
      after (withCell ((start 0 [0x46, 0x07]).setReg .sp 0xF3) 0xF3 0x20) (fun t => t.reg .sp) = some 0x21 := by decide
/-- V4.4 and V4.9. -/
theorem test_pop_fault :
    faultsWith (withCell ((start 0 [0x46, 0x00]).setReg .sp 255) 255 5) (.stackPointerOutOfRange 256) = true ∧
      faultsWith (withCell ((start 0 [0x46, 0x07]).setReg .sp 0xF3) 0xF3 0xFF) (.stackPointerOutOfRange 256) = true := by
  decide
/-- V5.1, V5.5 and V5.6. -/
theorem test_call :
    after ((start 6 [0x50, 0x01]).setReg .r1 0x0C) (fun t => (t.reg .sp, t.byteAt 0xF3, t.pc)) = some (0xF3, 8, 0x0C) ∧
      after (start 0 [0x50, 0x07]) (fun t => (t.reg .sp, t.byteAt 0xF3, t.pc)) = some (0xF3, 2, 0xF3) ∧
      after (start 253 [0x50, 0x01]) (fun t => (t.byteAt 0xF3, t.pc)) = some (255, 0) := by decide
/-- V5.3. -/
theorem test_call_fault :
    faultsWith (((start 0 [0x50, 0x00]).setReg .sp 0).setReg .r0 4) (.stackPointerOutOfRange (-1)) = true := by decide
/-- V5.2. -/
theorem test_ret :
    after (withCell ((start 0x16 [0x11]).setReg .sp 0xF3) 0xF3 8) (fun t => (t.pc, t.reg .sp)) = some (8, 0xF4) := by decide
/-- V5.4. -/
theorem test_ret_fault : faultsWith ((start 0 [0x11]).setReg .sp 255) (.stackPointerOutOfRange 256) = true := by decide
/-- V5.7 and V5.20. -/
theorem test_jmp :
    after ((start 0 [0x54, 0x02]).setReg .r2 9) (fun t => t.pc) = some 9 ∧
      after ((start 0 [0x54, 0x01]).setReg .r1 254) (fun t => t.pc) = some 254 := by decide
/-- V5.9. -/
theorem test_jmp_fault : faultsWith (start 0 [0x54, 0x0A]) (.regOutOfRange 10) = true := by decide
/-- V5.10, V5.11 and V5.17. -/
theorem test_jeq :
    after (((start 0x0E [0x55, 0x02]).setReg .r2 9).setFl 0b001) (fun t => t.pc) = some 9 ∧
      after (((start 0x0E [0x55, 0x02]).setReg .r2 9).setFl 0b100) (fun t => t.pc) = some 0x10 ∧
      after (start 0 [0x55, 0x09]) (fun t => (t.pc, t.run)) = some (2, .running) := by decide
/-- V5.18. -/
theorem test_jeq_fault : faultsWith ((start 0 [0x55, 0x09]).setFl 0b001) (.regOutOfRange 9) = true := by decide
/-- V5.14, V5.15 and V5.16. -/
theorem test_jne :
    after (((start 0x0E [0x56, 0x02]).setReg .r2 9).setFl 0b010) (fun t => t.pc) = some 9 ∧
      after (((start 0x0E [0x56, 0x02]).setReg .r2 9).setFl 0b001) (fun t => t.pc) = some 0x10 ∧
      after (start 0 [0x56, 0x02]) (fun t => t.pc) = some 0 := by decide
/-- V5.19. -/
theorem test_jne_untaken :
    after ((start 0 [0x56, 0x09]).setFl 0b001) (fun t => (t.pc, t.run)) = some (2, .running) := by decide

/-- A row of table V6: `x[0] = a`, `x[1] = b`, the bytes `op 00 01`. What `x[0]`, `x[1]`, the flags and `pc` become. -/
def aluRow (op a b : Byte) : Option (Word × Word × BitVec 3 × Nat) :=
  after ((((start 0 [op, 0x00, 0x01]).setReg .r0 a).setReg .r1 b).setFl 0b010) fun t => (t.reg .r0, t.reg .r1, t.fl, t.pc)

/-- Table V6 and V6.8: the flags stay. -/
theorem test_add :
    aluRow 0xA0 200 100 = some (44, 100, 0b010, 3) ∧ aluRow 0xA0 255 255 = some (254, 255, 0b010, 3) := by decide
/-- V6.1, V6.2 and V6.4. -/
theorem test_add_fault :
    faultsWith (start 0 [0xA0, 0x08, 0x00]) (.regOutOfRange 8) = true ∧
      faultsWith (start 0 [0xA0, 0x00, 0x08]) (.regOutOfRange 8) = true ∧
      faultsWith (start 0 [0xA0, 0x0A, 0x0B]) (.regOutOfRange 10) = true := by decide
/-- Table V6. -/
theorem test_sub : aluRow 0xA1 5 10 = some (251, 10, 0b010, 3) ∧ aluRow 0xA1 77 77 = some (0, 77, 0b010, 3) := by decide
/-- Table V6. -/
theorem test_mul : aluRow 0xA2 255 255 = some (1, 255, 0b010, 3) ∧ aluRow 0xA2 15 17 = some (255, 17, 0b010, 3) := by decide
/-- Table V6. -/
theorem test_div : aluRow 0xA3 100 7 = some (14, 7, 0b010, 3) ∧ aluRow 0xA3 5 7 = some (0, 7, 0b010, 3) := by decide
/-- Table V6 and V6.3. -/
theorem test_div_fault :
    faultsWith ((start 0 [0xA3, 0x00, 0x01]).setReg .r0 9) (.divideByZero .div) = true ∧
      faultsWith (start 0 [0xA3, 0x09, 0x01]) (.regOutOfRange 9) = true := by decide
/-- Table V6. -/
theorem test_mod : aluRow 0xA4 255 16 = some (15, 16, 0b010, 3) ∧ aluRow 0xA4 5 7 = some (5, 7, 0b010, 3) := by decide
/-- Table V6. -/
theorem test_mod_fault : faultsWith ((start 0 [0xA4, 0x00, 0x01]).setReg .r0 9) (.divideByZero .mod) = true := by decide
/-- Table V6. -/
theorem test_and : aluRow 0xA8 0xCC 0xAA = some (0x88, 0xAA, 0b010, 3) := by decide
/-- Table V6. -/
theorem test_or : aluRow 0xAA 0xCC 0xAA = some (0xEE, 0xAA, 0b010, 3) := by decide
/-- Table V6. -/
theorem test_xor : aluRow 0xAB 0x5A 0xFF = some (0xA5, 0xFF, 0b010, 3) := by decide
/-- Table V6. -/
theorem test_shl :
    aluRow 0xAC 0xFF 4 = some (0xF0, 4, 0b010, 3) ∧ aluRow 0xAC 0x5A 8 = some (0, 8, 0b010, 3) := by decide
/-- Table V6: the count is not reduced to 3 bits. -/
theorem test_shl_large : aluRow 0xAC 0x5A 255 = some (0, 255, 0b010, 3) := by decide
/-- Table V6: zeros enter at bit 7. -/
theorem test_shr :
    aluRow 0xAD 0x81 1 = some (0x40, 1, 0b010, 3) ∧ aluRow 0xAD 0x5A 8 = some (0, 8, 0b010, 3) := by decide
/-- Table V6. -/
theorem test_shr_large : aluRow 0xAD 0x5A 255 = some (0, 255, 0b010, 3) := by decide
/-- V6.5 and V6.7. -/
theorem test_inc :
    after ((start 0 [0x65, 0x07]).setReg .sp 255) (fun t => (t.reg .sp, t.pc)) = some (0, 2) ∧
      after ((start 0 [0x65, 0x00, 0xFF]).setReg .r0 1) (fun t => (t.reg .r0, t.pc)) = some (2, 2) := by decide
/-- V6.6. -/
theorem test_dec :
    after ((start 0 [0x66, 0x07]).setReg .sp 0) (fun t => (t.reg .sp, t.pc)) = some (255, 2) := by decide
/-- Table V7, and the old Less bit is cleared. -/
theorem test_cmp :
    after (((start 0 [0xA7, 0x00, 0x01]).setReg .r0 128).setReg .r1 127) (fun t => (t.fl, t.pc)) = some (0b010, 3) ∧
      after ((start 0 [0xA7, 0x00, 0x01]).setReg .r1 255) (fun t => t.fl) = some 0b100 ∧
      after ((start 0 [0xA7, 0x00, 0x01]).setFl 0b100) (fun t => t.fl) = some 0b001 := by decide
/-- V7, the last two cases. -/
theorem test_cmp_fault :
    faultsWith ((start 0 [0xA7, 0x08, 0x00]).setFl 0b010) (.regOutOfRange 8) = true ∧
      faultsWith (start 0 [0xA7, 0x00, 0x09]) (.regOutOfRange 9) = true := by decide
/-- Table "same register as source and destination". -/
theorem test_same_register :
    after ((start 0 [0xA0, 0x00, 0x00]).setReg .r0 200) (fun t => t.reg .r0) = some 144 ∧
      after ((start 0 [0xAC, 0x00, 0x00]).setReg .r0 3) (fun t => t.reg .r0) = some 24 ∧
      after ((start 0 [0xA3, 0x00, 0x00]).setReg .r0 9) (fun t => t.reg .r0) = some 1 := by decide

/-! ## The engine, reset, load and observe -/

/-- V2.2, V2.3, and the second half of V2.4. -/
theorem test_end_of_memory :
    faultsWith (start 254 [0x01]) (.memOutOfRange 256 .fetchOperandB) = true ∧
      faultsWith (start 255 [0x01]) (.memOutOfRange 256 .fetchOperandA) = true ∧
      faultsWith (start 256 []) (.memOutOfRange 256 .fetchOpcode) = true := by decide
/-- The first half of V2.4. -/
theorem test_last_instruction :
    after (start 253 [0x82, 0x00, 0x07]) (fun t => (t.reg .r0, t.pc)) = some (7, 256) := by decide
/-- V2.5, which is also V8.3. -/
theorem test_unsupported_fatal : faultsWith State.reset (.unsupportedOpcode 0x00 0) = true := by decide
/-- V2.7 and V2.8. -/
theorem test_unsupported_skip :
    after { start 0 [0xC3] with unsupportedPolicy := .skip } (fun t => (t.skipReports, t.pc, t.run)) =
        some ([(0xC3, 0)], 1, .running) ∧
      after { start 0 [0x1F] with unsupportedPolicy := .skip } (fun t => (t.skipReports, t.pc)) =
        some ([(0x1F, 0)], 1) := by decide
/-- The end of V2.6: the operand fetch comes before the lookup. -/
theorem test_skip_at_254 :
    faultsWith { start 254 [] with unsupportedPolicy := .skip } (.memOutOfRange 256 .fetchOperandB) = true := by decide
/-- V8.1. -/
theorem test_reset :
    State.reset.regs = ⟨0, 0, 0, 0, 0, 0, 0, 0xF4⟩ ∧ State.reset.pc = 0 ∧ State.reset.fl = 0 ∧
      State.reset.run = .running ∧ State.reset.out = [] ∧ State.reset.byteAt 0 = 0 ∧ State.reset.byteAt 255 = 0 := by decide
/-- V8.2. -/
theorem test_load :
    afterLoad [0x82, 0x00, 0x08, 0x01] (fun t => (t.byteAt 0, t.byteAt 1, t.byteAt 2, t.byteAt 3, t.byteAt 4)) =
        some (0x82, 0x00, 0x08, 0x01, 0x00) ∧
      afterLoad [0x82, 0x00, 0x08, 0x01] (fun t => (t.reg .sp, t.pc)) = some (0xF4, 0) := by decide
/-- The result of a run and the fault codes (`60_exceptions.md` rule R210). -/
theorem test_result :
    State.reset.result = none ∧ (State.reset.setRun .halted).result = some .halted ∧
      (State.reset.raise (.divideByZero .mod)).result = some (.faulted (.divideByZero .mod)) ∧
      (Fault.divideByZero .mod).code = 3 ∧ (Fault.stackPointerOutOfRange 256).code = 5 := by decide
/-- Observe near the end of memory shows the one cell there is (`60_exceptions.md` rule R227, log 30). -/
theorem test_observe : (start 255 [0x05]).observe.cells = [some 0x05, none, none] := by decide
/-- The word of a table row runs as the first instruction after reset (ADD R0, R0 from its first byte alone). -/
theorem test_withFetchWord :
    after (State.reset.withFetchWord 8 0xA0) (fun t => (t.pc, t.run)) = some (3, .running) ∧
      after ((State.reset.setPc 256).withFetchWord 24 0x2A0382) (fun t => (t.reg .r3, t.pc)) = some (42, 3) := by decide

/-! ## Witnesses: states that meet the hypotheses of each obligation -/

theorem witness_EncodeOfDecodedIsTheBytes : decode [0x82#8, 0x03#8, 0x2A#8, 0x01#8] = .ok (.ldi 3 42, [0x01]) := by decide

theorem witness_OtherBytesAreUnrecognized : operandCount 0xC0 = 3 ∧ operandCount 0xFF = 3 := by decide

theorem witness_BytesPastTheLengthAreIgnored :
    (decode [0x01#8, 0xFF#8, 0xFF#8] = .ok (.hlt, [0xFF, 0xFF]) ∧ operandCount 0x01 = 0) ∧
      (decode [0x65#8, 0x00#8, 0xFF#8] = .ok (.inc 0, [0xFF]) ∧ operandCount 0x65 = 1) := by decide

theorem witness_RegisterByteNamesOrFaults : (7#8).toNat ≤ 7 ∧ 8 ≤ (8#8).toNat ∧ 8 ≤ (255#8).toNat := by decide

theorem witness_MemReadChecksTheAddress :
    ((0 : Int) ≤ 0 ∧ (0 : Int) ≤ 255) ∧ ((0 : Int) ≤ 255 ∧ (255 : Int) ≤ 255) ∧ ((-1 : Int) < 0) ∧ ((255 : Int) < 256) := by
  decide

theorem witness_MemWriteSetsOneCell :
    (start 253 [1, 0, 2]).mem.wf ∧ ((0 : Int) ≤ 255 ∧ (255 : Int) ≤ 255) ∧ ((-1 : Int) < 0) ∧ ((255 : Int) < 256) := by
  decide

/-- The one-register instructions: the last register, and the first byte that is none. -/
theorem witness_LdiWritesTheImmediate : regIndex 7 = .ok .sp ∧ regIndex 0 = .ok .r0 ∧ 8 ≤ (8#8).toNat := by decide

theorem witness_PrnEmitsTheRegister : regIndex 7 = .ok .sp ∧ 8 ≤ (8#8).toNat := by decide

theorem witness_PushStoresBelowTheStackPointer :
    ((start 0 [0x45]).mem.wf ∧ regIndex 0 = .ok .r0 ∧ 1 ≤ (((start 0 [0x45]).setReg .sp 1).reg .sp).toNat) ∧
      (regIndex 7 = .ok .sp ∧ ((start 0 [0x45]).setReg .sp 0).reg .sp = 0) ∧ 8 ≤ (8#8).toNat := by decide

theorem witness_PopLoadsTheTopOfTheStack :
    (regIndex 0 = .ok .r0 ∧ Reg.r0 ≠ .sp) ∧ (((start 0 [0x46]).setReg .sp 254).reg .sp).toNat ≤ 254 ∧
      (((start 0 [0x46]).setReg .sp 255).reg .sp).toNat = 255 ∧ 8 ≤ (8#8).toNat := by decide

theorem witness_PushAndPopOfTheStackPointer :
    ((start 0 [0x45, 7]).mem.wf ∧ 1 ≤ (((start 0 [0x45, 7]).setReg .sp 1).reg .sp).toNat) ∧
      ((withCell State.reset 0xF4 254).mem.wf ∧ ((withCell State.reset 0xF4 254).byteAt 0xF4).toNat ≤ 254) ∧
      ((withCell State.reset 0xF4 255).mem.wf ∧ ((withCell State.reset 0xF4 255).byteAt 0xF4).toNat = 255) := by decide

theorem witness_PushThenPopRestores :
    (start 0 [0x45, 7]).mem.wf ∧ regIndex 7 = .ok .sp ∧ 1 ≤ (((start 0 [0x45, 7]).setReg .sp 1).reg .sp).toNat := by decide

theorem witness_CallPushesTheReturnAddress :
    ((start 253 [0x50, 1]).mem.wf ∧ (start 253 [0x50, 1]).pc ≤ 253) ∧
      (regIndex 1 = .ok .r1 ∧ 1 ≤ (((start 253 [0x50, 1]).setReg .sp 1).reg .sp).toNat) ∧
      ((start 253 [0x50, 1]).setReg .sp 0).reg .sp = 0 ∧ 8 ≤ (8#8).toNat := by decide

theorem witness_RetGoesToTheTopOfTheStack :
    (((start 0 [0x11]).setReg .sp 254).reg .sp).toNat ≤ 254 ∧ (((start 0 [0x11]).setReg .sp 255).reg .sp).toNat = 255 := by
  decide

theorem witness_CallThenRetReturns :
    (start 253 [0x50, 7]).mem.wf ∧ (start 253 [0x50, 7]).pc ≤ 253 ∧ regIndex 7 = .ok .sp ∧
      1 ≤ (((start 253 [0x50, 7]).setReg .sp 1).reg .sp).toNat := by decide

theorem witness_JmpGoesToTheRegister : regIndex 7 = .ok .sp ∧ 8 ≤ (8#8).toNat := by decide

theorem witness_JeqAndJneBranchOnEqual :
    regIndex 7 = .ok .sp ∧ (State.reset.setFl 0b001).flE = true ∧ State.reset.flE = false ∧
      (State.reset.setFl 0b110).flE = false ∧ 8 ≤ (8#8).toNat := by decide

/-- Two registers, and one register twice. -/
theorem witness_AddSubMulWrap : regIndex 0 = .ok .r0 ∧ regIndex 7 = .ok .sp := by decide

theorem witness_DivAndModOfANonzeroDivisor :
    regIndex 0 = .ok .r0 ∧ regIndex 1 = .ok .r1 ∧ ((State.reset.setReg .r1 1).reg .r1).toNat ≠ 0 := by decide

theorem witness_DivAndModByZeroFault :
    regIndex 7 = .ok .sp ∧ regIndex 0 = .ok .r0 ∧ (State.reset.reg .r0).toNat = 0 := by decide

theorem witness_AndOrXorWorkBitByBit : regIndex 2 = .ok .r2 ∧ regIndex 3 = .ok .r3 := by decide

theorem witness_ShiftsUseTheWholeCount :
    regIndex 4 = .ok .r4 ∧ regIndex 5 = .ok .r5 ∧ 8 ≤ ((State.reset.setReg .r5 8).reg .r5).toNat ∧
      8 ≤ ((State.reset.setReg .r5 255).reg .r5).toNat := by decide

theorem witness_IncAndDecWrap : regIndex 6 = .ok .r6 ∧ regIndex 7 = .ok .sp := by decide

theorem witness_CmpSetsExactlyOneFlag :
    (regIndex 0 = .ok .r0 ∧ regIndex 7 = .ok .sp) ∧ (State.reset.reg .r0).toNat < (State.reset.reg .sp).toNat ∧
      (State.reset.reg .sp).toNat > (State.reset.reg .r0).toNat ∧ (State.reset.reg .r0).toNat = (State.reset.reg .r1).toNat := by
  decide

/-- A step that changes the flags; an instruction that is no CMP with flags that differ only above Equal; a CMP. -/
theorem witness_FlagsAreWrittenByCmpAndOnlyEqualIsRead :
    after (start 0 [0xA7, 0x00, 0x01]) (fun t => decide (t.fl ≠ (start 0 [0xA7, 0x00, 0x01]).fl)) = some true ∧
      ((Instr.jeq 9).mnemonic ≠ .cmp ∧ (0b110#3).getLsbD 0 = State.reset.flE) ∧
      (regIndex 0 = .ok .r0 ∧ regIndex 7 = .ok .sp) := by decide

theorem witness_StepRunsTheDecodedInstruction :
    (start 253 [0x82, 0x00, 0x07]).run = .running ∧ (start 253 [0x82, 0x00, 0x07]).pc ≤ 253 ∧
      decode [(start 253 [0x82, 0x00, 0x07]).byteAt 253, (start 253 [0x82, 0x00, 0x07]).byteAt 254,
        (start 253 [0x82, 0x00, 0x07]).byteAt 255] = .ok (.ldi 0 7, []) := by decide

/-- At 253: an instruction that ends at 256, one that sets `pc`, and one that faults. -/
theorem witness_ProgramCounterAdvance :
    (start 253 []).run = .running ∧ (start 253 []).pc ≤ 253 ∧
      (afterExec (.ldi 0 7) (start 253 []) (fun t => (t.run, t.pc)) = some (.running, 256) ∧
        pcIsSetByHandler (opc .ldi) = false) ∧
      (afterExec (.jmp 7) (start 253 []) (fun t => (t.run, t.pc)) = some (.running, 244) ∧
        pcIsSetByHandler (opc .jmp) = true) ∧
      afterExec (.jmp 8) (start 253 []) (fun t => (t.run, t.pc)) = some (.faulted (.regOutOfRange 8), 253) := by decide

theorem witness_FetchPastTheEndFaults :
    (start 254 []).run = .running ∧ (start 254 []).pc = 254 ∧ (start 255 []).pc = 255 ∧ (start 256 []).pc = 256 := by decide

/-- The invariant holds in a state with a listed memory, flags set and `pc` at its largest value. -/
theorem witness_Inv : ((start 253 [0x82, 0x00, 0x07]).setPc 256 |>.setFl 0b100).Inv where
  memory := by decide
  pcRange := by decide
  flags := by decide
  cause := fun f h => by cases h

/-- `pc = 256` raises the opcode case; `pc = 253` raises none; an address just outside on either side. -/
theorem witness_MemoryFaultsComeFromFetchOnly :
    ((-1 : Int) < 0 ∧ (255 : Int) < 256) ∧
    ((start 253 [0x82, 0x00, 0x07]).setPc 256 |>.setFl 0b100).run = .running ∧
      after ((start 253 [0x82, 0x00, 0x07]).setPc 256 |>.setFl 0b100) (fun t => t.run) =
        some (.faulted (.memOutOfRange 256 .fetchOpcode)) ∧
      after (start 253 [0x82, 0x00, 0x07]) (fun t => t.run) = some .running := by decide

theorem witness_UnrecognizedOpcodeFollowsThePolicy :
    ((start 253 [0xFF]).run = .running ∧ (start 253 [0xFF]).pc ≤ 253 ∧ lookup ((start 253 [0xFF]).byteAt 253) = none) ∧
      (start 253 [0xFF]).unsupportedPolicy = .fatal ∧
      ({ start 253 [0xFF] with unsupportedPolicy := .skip } : State).unsupportedPolicy = .skip := by decide

/-- The first bad byte of two; a jump that is not taken. -/
theorem witness_RegisterFaultIsTheFirstBadByte :
    State.reset.run = .running ∧
      afterExec (.add 8 9) State.reset (fun t => t.run) = some (.faulted (.regOutOfRange 8)) ∧
      afterExec (.add 7 9) State.reset (fun t => t.run) = some (.faulted (.regOutOfRange 9)) ∧
      afterExec (.jeq 9) State.reset (fun t => t.run) = some .running := by decide

/-- Each of the four instructions raises it. -/
theorem witness_StackPointerFaultsComeFromStackInstructions :
    State.reset.run = .running ∧
      afterExec (.push 0) (State.reset.setReg .sp 0) (fun t => t.run) = some (.faulted (.stackPointerOutOfRange (-1))) ∧
      afterExec (.call 0) (State.reset.setReg .sp 0) (fun t => t.run) = some (.faulted (.stackPointerOutOfRange (-1))) ∧
      afterExec .ret (State.reset.setReg .sp 255) (fun t => t.run) = some (.faulted (.stackPointerOutOfRange 256)) ∧
      afterExec (.pop 0) (State.reset.setReg .sp 255) (fun t => t.run) = some (.faulted (.stackPointerOutOfRange 256)) ∧
      afterExec (.pop 7) (withCell State.reset 0xF4 255) (fun t => t.run) =
        some (.faulted (.stackPointerOutOfRange 256)) := by decide

theorem witness_AFaultChangesOnlyRun :
    ((start 0 [0x46, 0x00]).setReg .sp 255).run = .running ∧
      after ((start 0 [0x46, 0x00]).setReg .sp 255) (fun t => t.run) = some (.faulted (.stackPointerOutOfRange 256)) := by decide

theorem witness_OnlyHltHalts :
    (start 253 [0x01]).run = .running ∧ after (start 253 [0x01]) (fun t => t.run) = some .halted := by decide

theorem witness_TerminalStatesExecuteNothing :
    (State.reset.setRun .halted).run = .halted ∧
      (State.reset.raise (.divideByZero .div)).run = .faulted (.divideByZero .div) := by decide

theorem witness_RegistersAreWrittenByDestinationOnly :
    after (start 0 [0x82, 0x00, 0x07]) (fun t => decide (t.reg .r0 ≠ State.reset.reg .r0)) = some true ∧
      after (start 0 [0x11]) (fun t => decide (t.reg .sp ≠ State.reset.reg .sp)) = some true := by decide

theorem witness_MemoryIsWrittenByPushAndCallOnly :
    (start 0 [0x45, 0x07]).mem.wf ∧
      after (start 0 [0x45, 0x07]) (fun t => decide (t.byteAt 0xF3 ≠ (start 0 [0x45, 0x07]).byteAt 0xF3)) = some true := by
  decide

theorem witness_OutputGrowsByPrnOnly :
    after (start 0 [0x47, 0x07]) (fun t => decide (t.out = State.reset.out)) = some false := by decide

theorem witness_EventLogsAreNeverRead :
    after { start 0 [0xC3] with unsupportedPolicy := .skip } (fun t => t.skipReports) = some [(0xC3, 0)] := by decide

theorem witness_PolicyIsConstant :
    after (start 0 [0x01]) (fun t => t.unsupportedPolicy) = some .fatal ∧ State.reset.unsupportedPolicy = .fatal := by decide

theorem witness_AStoreIsSeenByTheNextFetch :
    ((start 251 [0x45, 0x00]).setReg .sp 254).mem.wf ∧ regIndex 0 = .ok .r0 ∧
      (((start 251 [0x45, 0x00]).setReg .sp 254).reg .sp).toNat = ((start 251 [0x45, 0x00]).setReg .sp 254).pc + 3 ∧
      ((start 251 [0x45, 0x00]).setReg .sp 254).pc ≤ 251 := by decide

/-- With `witness_Inv`: a step from a state that meets the invariant. -/
theorem witness_OneStepKeepsTheInvariant :
    after ((start 253 [0x82, 0x00, 0x07]).setPc 256 |>.setFl 0b100) (fun t => t.pc) = some 256 := by decide

theorem witness_ResetLeavesZeros : Reg.r0 ≠ .sp ∧ Reg.r6 ≠ .sp := by decide

/-- With `witness_Inv`: an image of exactly 256 bytes, one of 257, and the byte and the cell past an image of 1. -/
theorem witness_LoadPlacesTheImage :
    (List.replicate 256 (1 : Byte)).length ≤ 256 ∧ 256 < (List.replicate 257 (1 : Byte)).length ∧
      ([0x01] : List Byte)[0]? = some 0x01 ∧ ([0x01] : List Byte).length ≤ 1 := by
  simp only [List.length_replicate]
  exact ⟨by omega, by omega, rfl, by decide⟩

theorem witness_ObserveShowsWhatFetchWillRead :
    fetch (start 253 [0x82, 0x00, 0x07]) = .ok (0x82, 0x00, 0x07) := by decide

end Sys2Proof.Tests
end

namespace Sys2Proof.Machine

/-! ### Reset (`00_scope.md` rules R10, R11; `70_reset_and_hazards.md` rule R240) -/

@[simp] theorem reset_reg_sp : State.reset.reg .sp = Config.spReset := rfl

@[simp] theorem reset_pc : State.reset.pc = Config.pcReset := rfl

/-- A later reset differs from the first only in the model argument, so every register is as after the first. -/
@[simp] theorem applyReset_reg (s : State) (r : Reg) : s.applyReset.reg r = State.reset.reg r := rfl

@[simp] theorem applyReset_pc (s : State) : s.applyReset.pc = State.reset.pc := rfl

theorem spReset_toNat : Config.spReset.toNat = 244 := rfl

theorem pcReset_eq_zero : Config.pcReset = 0 := rfl

/-- Settles O49: the parameters `SP_RESET` and `PC_RESET` give the values at reset, and a later reset restores them. -/
theorem resetStackPointerAndPc : Obligations.ResetStackPointerAndPc := by
  intro s
  have hsp : (State.reset.reg .sp).toNat = 244 := by rw [reset_reg_sp, spReset_toNat]
  have hpc : State.reset.pc = 0 := reset_pc.trans pcReset_eq_zero
  exact ⟨hsp, hpc, by rw [applyReset_reg, hsp], by rw [applyReset_pc, hpc]⟩

end Sys2Proof.Machine

namespace Sys2Proof.Machine

/-! ### Flags (`10_state.md` rule R31): the updates of a state commute with a change of its flags -/

@[simp] theorem setFl_setReg (s : State) (f : BitVec 3) (r : Reg) (v : Word) :
    (s.setFl f).setReg r v = (s.setReg r v).setFl f := rfl

@[simp] theorem setFl_setPc (s : State) (f : BitVec 3) (p : Nat) : (s.setFl f).setPc p = (s.setPc p).setFl f := rfl

@[simp] theorem setFl_setByte (s : State) (f : BitVec 3) (a : Nat) (v : Byte) :
    (s.setFl f).setByte a v = (s.setByte a v).setFl f := rfl

@[simp] theorem setFl_raise (s : State) (f : BitVec 3) (e : Fault) : (s.setFl f).raise e = (s.raise e).setFl f := rfl

@[simp] theorem setFl_setFl (s : State) (f g : BitVec 3) : (s.setFl f).setFl g = s.setFl g := rfl

theorem advance_setFl (ir : Byte) (s : State) (f : BitVec 3) : advance ir (s.setFl f) = (advance ir s).setFl f := by
  unfold advance
  split <;> rfl

/-- A handler that neither reads nor writes the flags: from other flags it does the same and carries them along. -/
def FlagBlind (h : Handler) : Prop := ∀ (s : State) (f : BitVec 3), h (s.setFl f) = (h s).map (State.setFl · f)

/-- Handlers in sequence ignore the flags when each part does. -/
theorem FlagBlind.bind {h g : Handler} (hh : FlagBlind h) (hg : FlagBlind g) : FlagBlind fun s => h s >>= g := by
  intro s f
  simp only [hh s f]
  cases h s with
  | error e => rfl
  | ok t => exact hg t f

/-- A handler that starts with a register index ignores the flags when what follows does. -/
theorem FlagBlind.regIndex_bind (a : Byte) {k : Reg → Handler} (hk : ∀ i, FlagBlind (k i)) :
    FlagBlind fun s => regIndex a >>= fun i => k i s := by
  intro s f
  cases regIndex a with
  | error e => rfl
  | ok i => exact hk i s f

theorem flagBlind_stackGrow : FlagBlind stackGrow := by
  intro s f
  simp only [stackGrow, setFl_reg]
  cases checkedSp _ <;> rfl

theorem flagBlind_stackShrink : FlagBlind stackShrink := by
  intro s f
  simp only [stackShrink, setFl_reg]
  cases checkedSp _ <;> rfl

theorem flagBlind_handleLdi (a v : Byte) : FlagBlind (handleLdi a v) := .regIndex_bind a fun _ _ _ => rfl

theorem flagBlind_handlePrn (a : Byte) : FlagBlind (handlePrn a) := .regIndex_bind a fun _ _ _ => rfl

theorem flagBlind_jumpTo (a : Byte) : FlagBlind (jumpTo a) := .regIndex_bind a fun _ _ _ => rfl

theorem flagBlind_jumpIf (c : Bool) (a : Byte) : FlagBlind (jumpIf c a) := by
  cases c with
  | true => exact flagBlind_jumpTo a
  | false => exact fun _ _ => rfl

theorem flagBlind_handlePush (a : Byte) : FlagBlind (handlePush a) :=
  .regIndex_bind a fun i => flagBlind_stackGrow.bind (g := fun s => stackWrite s (s.reg i)) fun s f => by
    simp [Except.map]

theorem flagBlind_handlePop (a : Byte) : FlagBlind (handlePop a) := by
  refine .regIndex_bind a fun i s f => ?_
  simp only [stackRead_eq, ok_bind, setFl_reg, setFl_byteAt, setFl_setReg]
  exact flagBlind_stackShrink _ f

theorem flagBlind_handleCall (a : Byte) : FlagBlind (handleCall a) :=
  .regIndex_bind a fun i => flagBlind_stackGrow.bind
    (g := fun s => stackWrite s (BitVec.ofNat 8 (s.pc + 2)) >>= fun s => .ok (s.setPc (s.reg i).toNat))
    fun s f => by simp [Except.map]

theorem flagBlind_handleRet : FlagBlind handleRet := by
  intro s f
  simp only [handleRet, stackRead_eq, ok_bind, setFl_reg, setFl_byteAt, flagBlind_stackShrink s f]
  cases stackShrink s <;> rfl

theorem flagBlind_aluBinary (op : BinaryOp) (a b : Byte) : FlagBlind (aluBinary op a b) := by
  refine .regIndex_bind a fun i => .regIndex_bind b fun j s f => ?_
  simp only [setFl_reg]
  cases applyBinary op (s.reg i) (s.reg j) <;> rfl

theorem flagBlind_aluUnary (op : UnaryOp) (a : Byte) : FlagBlind (aluUnary op a) := .regIndex_bind a fun _ _ _ => rfl

/-- Every handler but CMP's depends on the flags through Equal alone, which only JEQ and JNE read. -/
theorem handlerOf_setFl {i : Instr} {s : State} {f : BitVec 3} (hi : i.mnemonic ≠ .cmp) (hf : f.getLsbD 0 = s.flE) :
    handlerOf i (s.setFl f) = (handlerOf i s).map (State.setFl · f) := by
  have hE : (s.setFl f).flE = s.flE := hf
  cases i with
  | hlt => rfl
  | ldi a v => exact flagBlind_handleLdi a v s f
  | prn a => exact flagBlind_handlePrn a s f
  | push a => exact flagBlind_handlePush a s f
  | pop a => exact flagBlind_handlePop a s f
  | call a => exact flagBlind_handleCall a s f
  | ret => exact flagBlind_handleRet s f
  | jmp a => exact flagBlind_jumpTo a s f
  | jeq a =>
    simp only [handlerOf, hE]
    exact flagBlind_jumpIf _ a s f
  | jne a =>
    simp only [handlerOf, hE]
    exact flagBlind_jumpIf _ a s f
  | inc a => exact flagBlind_aluUnary .inc a s f
  | dec a => exact flagBlind_aluUnary .dec a s f
  | cmp a b => exact absurd rfl hi
  | _ a b => exact flagBlind_aluBinary _ a b s f

/-- An instruction other than CMP does the same from any flags with the same Equal bit, and carries them along. -/
theorem exec_setFl {i : Instr} {s : State} {f : BitVec 3} (hi : i.mnemonic ≠ .cmp) (hf : f.getLsbD 0 = s.flE) :
    ∃ t, exec i s = .next t ∧ exec i (s.setFl f) = .next (t.setFl f) := by
  have hh := handlerOf_setFl hi hf
  cases hs : handlerOf i s with
  | ok u =>
    rw [hs] at hh
    exact ⟨_, exec_of_ok hs, by rw [exec_of_ok hh, advance_setFl]⟩
  | error e =>
    rw [hs] at hh
    exact ⟨_, exec_of_error hs, by rw [exec_of_error hh, setFl_raise]⟩

/-- A CMP of two registers overwrites the flags, so the flags before it leave no trace. -/
theorem exec_cmp_setFl {a b : Byte} {i j : Reg} (ha : regIndex a = .ok i) (hb : regIndex b = .ok j) (s : State)
    (f : BitVec 3) : exec (.cmp a b) (s.setFl f) = exec (.cmp a b) s := by
  have hcmp : ∀ u : State, handlerOf (.cmp a b) u = .ok (u.setFl (compareFlags (u.reg i) (u.reg j))) := fun _ =>
    handleCmp_eq_ok.2 ⟨i, j, ha, hb, rfl⟩
  rw [exec_of_ok (hcmp _), exec_of_ok (hcmp _), setFl_setFl, setFl_reg, setFl_reg]

/-- A step that changes the flags ran a CMP. -/
theorem cmp_of_step_changes_fl {s t : State} (hstep : step s = .next t) (hfl : t.fl ≠ s.fl) :
    ∃ a b rest, decode [s.byteAt s.pc, s.byteAt (s.pc + 1), s.byteAt (s.pc + 2)] = .ok (.cmp a b, rest) := by
  rcases step_cases hstep with ⟨-, rfl⟩ | ⟨-, ⟨e, rfl, -⟩ | ⟨-, -, rfl⟩ | ⟨-, i, rest, hdec, hrun⟩⟩
  · exact absurd rfl hfl
  · exact absurd (raise_fl s e) hfl
  · obtain ⟨-, -, -, hsame, -⟩ := unsupported_frame (ir := s.byteAt s.pc) (s := s)
    exact absurd hsame hfl
  · rcases hrun with ⟨u, hu, rfl⟩ | ⟨e, -, rfl⟩
    · obtain ⟨-, -, -, -, hflags, -⟩ := handler_ok_frame hu
      rw [advance_fl] at hfl
      rcases hflags with hsame | ⟨⟨a, b, rfl⟩, -⟩
      · exact absurd hsame hfl
      · exact ⟨a, b, rest, hdec⟩
    · exact absurd (raise_fl s e) hfl

/-- Settles O30: a step that changes the flags ran CMP; every other handler commutes with a change of the flags that keeps
Equal; CMP overwrites them. -/
theorem flagsAreWrittenByCmpAndOnlyEqualIsRead : Obligations.FlagsAreWrittenByCmpAndOnlyEqualIsRead :=
  ⟨fun _ _ hstep hfl => cmp_of_step_changes_fl hstep hfl,
    fun _ _ _ hi hf => exec_setFl hi hf,
    fun _ _ s f _ _ ha hb => exec_cmp_setFl ha hb s f,
    fun _ => rfl⟩

/-! ### The program counter (`10_state.md` rule R28) -/

/-- Step 6 does nothing after a handler that has set `pc`. -/
theorem advance_of_pcIsSetByHandler {ir : Byte} (h : pcIsSetByHandler ir = true) (s : State) : advance ir s = s := by
  simp [advance, h]

/-- Bit 4 of the opcode is 1 exactly for the five control transfers. -/
theorem pcIsSetByHandler_opc_iff (m : Mnemonic) :
    pcIsSetByHandler (opc m) = true ↔ m ∈ [.call, .ret, .jmp, .jeq, .jne] := by
  rw [pcIsSetByHandler_opc, decide_eq_true_iff]

/-- A completed instruction whose bit 4 is 0 moves `pc` past itself. -/
theorem completed_pc_of_not_set {i : Instr} {s u : State} (hu : handlerOf i s = .ok u)
    (h4 : pcIsSetByHandler (opc i.mnemonic) = false) :
    (advance (opc i.mnemonic) u).pc = s.pc + 1 + operandCount (opc i.mnemonic) := by
  obtain ⟨-, -, -, -, -, hpc, -⟩ := handler_ok_frame hu
  have hmem : i.mnemonic ∉ [.call, .ret, .jmp, .jeq, .jne] := by
    rw [← pcIsSetByHandler_opc_iff, h4]
    exact Bool.false_ne_true
  rw [advance_pc, h4, hpc hmem, if_neg Bool.false_ne_true]
  omega

/-- A completed control transfer fetched at 0 to 253 leaves `pc` at 255 or below. -/
theorem completed_pc_le_of_set {i : Instr} {s u : State} (hs : s.pc ≤ 253) (hu : handlerOf i s = .ok u)
    (h4 : pcIsSetByHandler (opc i.mnemonic) = true) : (advance (opc i.mnemonic) u).pc ≤ 255 := by
  obtain ⟨-, -, -, -, -, -, hpc⟩ := handler_ok_frame hu
  rw [advance_of_pcIsSetByHandler h4]
  have := hpc ((pcIsSetByHandler_opc_iff _).1 h4)
  omega

/-- Settles O32: a completed handler leaves the core not faulted and `pc` where bit 4 says; a raise leaves `pc` alone. -/
theorem programCounterAdvance : Obligations.ProgramCounterAdvance := by
  refine ⟨rfl, fun s i hrun hpc => ⟨pcIsSetByHandler_opc_iff _, ?_⟩⟩
  cases hh : handlerOf i s with
  | ok u =>
    exact ⟨_, exec_of_ok hh, fun _ h4 => completed_pc_of_not_set hh h4,
      fun h4 => ⟨advance_of_pcIsSetByHandler h4 _, fun _ => completed_pc_le_of_set hpc hh h4⟩,
      fun f hf => absurd hf (run_of_completed hrun hh f)⟩
  | error e =>
    exact ⟨_, exec_of_error hh, fun hsafe _ => absurd (raise_run s e) (hsafe e),
      fun h4 => ⟨advance_of_pcIsSetByHandler h4 _, fun hsafe => absurd (raise_run s e) (hsafe e)⟩,
      fun _ _ => raise_pc s e⟩

end Sys2Proof.Machine

namespace Sys2Proof.Machine

/-! ### Memory access (`20_memory.md` rules R50 to R52) -/

theorem inMemory_iff (addr : Int) : inMemory addr = true ↔ 0 ≤ addr ∧ addr ≤ 255 := by
  rw [inMemory, decide_eq_true_iff, Config.memSize]
  omega

theorem inMemory_eq_false_iff (addr : Int) : inMemory addr = false ↔ addr < 0 ∨ 255 < addr := by
  rw [← Bool.not_eq_true, inMemory_iff]
  omega

theorem memRead_of_inMemory {s : State} {addr : Int} (kind : AccessKind) (h : inMemory addr = true) :
    memRead s addr kind = .ok (s.byteAt addr.toNat) := if_pos h

theorem memRead_of_not_inMemory {s : State} {addr : Int} (kind : AccessKind) (h : inMemory addr = false) :
    memRead s addr kind = .error (.memOutOfRange addr kind) := if_neg (Bool.eq_false_iff.1 h)

theorem memWrite_of_inMemory {s : State} {addr : Int} (v : Byte) (kind : AccessKind) (h : inMemory addr = true) :
    memWrite s addr v kind = .ok (s.setByte addr.toNat v) := if_pos h

theorem memWrite_of_not_inMemory {s : State} {addr : Int} (v : Byte) (kind : AccessKind) (h : inMemory addr = false) :
    memWrite s addr v kind = .error (.memOutOfRange addr kind) := if_neg (Bool.eq_false_iff.1 h)

/-- A store changes no cell but its own. -/
theorem setByte_sameMemoryBut {s : State} (a : Nat) (v : Byte) (hm : s.mem.wf) : SameMemoryBut a s (s.setByte a v) := by
  intro c hc
  rw [setByte_byteAt v hm, if_neg hc]

/-- A store leaves the output, the skip log and the policy as before. -/
theorem setByte_sameEvents (s : State) (a : Nat) (v : Byte) : SameEvents s (s.setByte a v) := ⟨rfl, rfl, rfl⟩

/-- Settles O10: the write inside the memory is `State.setByte`, whose laws give each clause. -/
theorem memWriteSetsOneCell : Obligations.MemWriteSetsOneCell := by
  intro s addr v kind hm
  refine ⟨fun hin => ?_, fun hout => memWrite_of_not_inMemory v kind ((inMemory_eq_false_iff addr).2 hout)⟩
  have hcell : addr.toNat < Config.memSize := by
    simp only [Config.memSize]
    omega
  have hread : (s.setByte addr.toNat v).byteAt addr.toNat = v := by rw [setByte_byteAt v hm, if_pos rfl]
  exact ⟨_, memWrite_of_inMemory v kind ((inMemory_iff addr).2 hin), hread, setByte_sameMemoryBut _ v hm,
    Memory.set_wf v hm hcell, rfl, rfl, rfl, rfl, setByte_sameEvents s _ v⟩

/-- Settles O9: the check of the address decides between the cell and the fault, whatever the integer. -/
theorem memReadChecksTheAddress : Obligations.MemReadChecksTheAddress := fun _ addr kind =>
  ⟨fun hin => memRead_of_inMemory kind ((inMemory_iff addr).2 hin),
    fun hout => memRead_of_not_inMemory kind ((inMemory_eq_false_iff addr).2 hout)⟩

end Sys2Proof.Machine

namespace Sys2Proof.Machine

/-! ### LDI (`41_system_and_move.md` rule R131) -/

/-- LDI on a byte that names a register answers the register write, advanced, whatever the immediate. -/
theorem exec_ldi_of_register {a : Byte} {i : Reg} (v : Byte) (s : State) (h : regIndex a = .ok i) :
    exec (.ldi a v) s = .next (advance (opc .ldi) (s.setReg i v)) :=
  exec_of_ok (i := .ldi a v) (handleLdi_eq_ok.2 ⟨i, h, rfl⟩)

/-- LDI on a byte that names no register faults with that byte. -/
theorem exec_ldi_of_le {a : Byte} (v : Byte) (s : State) (h : 8 ≤ a.toNat) :
    exec (.ldi a v) s = .next (s.raise (.regOutOfRange a)) :=
  exec_of_error (i := .ldi a v) (handleLdi_eq_error.2 (regIndex_of_le h))

/-- LDI leaves `pc` to step 6: it is none of the five control transfers. -/
theorem ldi_not_control (a v : Byte) : (Instr.ldi a v).mnemonic ∉ [Mnemonic.call, .ret, .jmp, .jeq, .jne] := by
  simp [Instr.mnemonic]

/-- Settles O12: the register byte alone decides between the register write and the fault; the immediate is not tested. -/
theorem ldiWritesTheImmediate : Obligations.LdiWritesTheImmediate := by
  intro s a v
  refine ⟨rfl, fun i hi => ?_, exec_ldi_of_le v s⟩
  have hwrote : WroteRegister i v.toNat 3 s (advance (opc .ldi) (s.setReg i v)) :=
    wroteRegister_of_setReg (.ldi a v) s i v (ldi_not_control a v)
  exact ⟨_, exec_ldi_of_register v s hi, hwrote⟩

end Sys2Proof.Machine

namespace Sys2Proof.Machine

/-! ### PUSH (`42_stack.md` rule R140) -/

/-- PUSH leaves `pc` to step 6: it is none of the five control transfers. -/
theorem push_not_control (a : Byte) : (Instr.push a).mnemonic ∉ [Mnemonic.call, .ret, .jmp, .jeq, .jne] := by
  simp [Instr.mnemonic]

/-- PUSH above stack pointer 0 stores the register, as read after the decrement, at the decremented pointer. -/
theorem exec_push_of_register {a : Byte} {i : Reg} {s : State} (h : regIndex a = .ok i) (hsp : (s.reg .sp).toNat ≠ 0) :
    exec (.push a) s = .next (((s.setReg .sp s.grownSp).setByte ((s.reg .sp).toNat - 1)
      ((s.setReg .sp s.grownSp).reg i)).setPc (s.pc + 2)) := by
  rw [exec_of_ok (i := .push a) (handlePush_eq_ok.2 ⟨i, h, hsp, rfl⟩), advance_eq_setPc, if_neg (push_not_control a)]
  rfl

/-- PUSH at stack pointer 0 faults with the would-be pointer -1, once the register byte has passed. -/
theorem exec_push_of_sp_zero {a : Byte} {i : Reg} {s : State} (h : regIndex a = .ok i) (hsp : (s.reg .sp).toNat = 0) :
    exec (.push a) s = .next (s.raise (.stackPointerOutOfRange (-1))) :=
  exec_of_error (i := .push a) (handlePush_eq_error.2 (.inr ⟨i, h, hsp, rfl⟩))

/-- PUSH of a byte that names no register faults with that byte, whatever the stack pointer. -/
theorem exec_push_of_le {a : Byte} (s : State) (h : 8 ≤ a.toNat) :
    exec (.push a) s = .next (s.raise (.regOutOfRange a)) :=
  exec_of_error (i := .push a) (handlePush_eq_error.2 (.inl (regIndex_of_le h)))

/-- Settles O14: the register byte, then the stack pointer, decide between the two faults and the store. The byte stored is
what the register holds afterwards, since neither the store nor the advance touches a register. -/
theorem pushStoresBelowTheStackPointer : Obligations.PushStoresBelowTheStackPointer := by
  intro s a hm
  refine ⟨rfl, fun i hi hsp => ?_, fun i hi hsp => ?_, exec_push_of_le s⟩
  · refine ⟨_, exec_push_of_register hi (by omega), ?_⟩
    rw [setPc_reg, setByte_reg]
    exact pushedByte_of_push hm _ _
  · have hzero : (s.reg .sp).toNat = 0 := by rw [hsp]; rfl
    exact exec_push_of_sp_zero hi hzero

end Sys2Proof.Machine

namespace Sys2Proof.Machine

/-! ### CALL, RET and JMP (`43_control_transfer.md` rules R150 to R152) -/

/-- A completed control transfer answers exactly what its handler leaves: step 6 does not move `pc`. -/
theorem exec_of_ok_of_control {i : Instr} {s t : State} (hi : i.mnemonic ∈ [Mnemonic.call, .ret, .jmp, .jeq, .jne])
    (h : handlerOf i s = .ok t) : exec i s = .next t := by
  rw [exec_of_ok h, advance_of_pcIsSetByHandler ((pcIsSetByHandler_opc_iff _).2 hi)]

/-- CALL above stack pointer 0 stores the return address at the decremented pointer and goes to the register, as read
after the decrement. -/
theorem exec_call_of_register {a : Byte} {i : Reg} {s : State} (h : regIndex a = .ok i) (hsp : (s.reg .sp).toNat ≠ 0) :
    exec (.call a) s = .next (((s.setReg .sp s.grownSp).setByte ((s.reg .sp).toNat - 1)
      (BitVec.ofNat 8 (s.pc + 2))).setPc ((s.setReg .sp s.grownSp).reg i).toNat) :=
  exec_of_ok_of_control (i := .call a) (by simp [Instr.mnemonic]) (handleCall_eq_ok.2 ⟨i, h, hsp, rfl⟩)

/-- CALL at stack pointer 0 faults with the would-be pointer -1, once the register byte has passed. -/
theorem exec_call_of_sp_zero {a : Byte} {i : Reg} {s : State} (h : regIndex a = .ok i) (hsp : (s.reg .sp).toNat = 0) :
    exec (.call a) s = .next (s.raise (.stackPointerOutOfRange (-1))) :=
  exec_of_error (i := .call a) (handleCall_eq_error.2 (.inr ⟨i, h, hsp, rfl⟩))

/-- CALL of a byte that names no register faults with that byte, whatever the stack pointer. -/
theorem exec_call_of_le {a : Byte} (s : State) (h : 8 ≤ a.toNat) :
    exec (.call a) s = .next (s.raise (.regOutOfRange a)) :=
  exec_of_error (i := .call a) (handleCall_eq_error.2 (.inl (regIndex_of_le h)))

/-- The return address fits its byte, because an instruction executes only at `pc` up to 253 (log 28). -/
theorem returnAddress_toNat {pc : Nat} (h : pc ≤ 253) : (BitVec.ofNat 8 (pc + 2)).toNat = pc + 2 := by
  rw [BitVec.toNat_ofNat]
  omega

/-- Settles O18: the register byte, then the stack pointer, decide between the two faults and the call. The target is what
the register holds afterwards, since neither the store nor the jump touches a register. -/
theorem callPushesTheReturnAddress : Obligations.CallPushesTheReturnAddress := by
  intro s a hm hpc
  refine ⟨rfl, fun i hi hsp => ?_, fun i hi hsp => ?_, exec_call_of_le s⟩
  · refine ⟨_, _, exec_call_of_register hi (by omega), returnAddress_toNat hpc, ?_⟩
    rw [setPc_reg, setByte_reg]
    exact pushedByte_of_push hm _ _
  · have hzero : (s.reg .sp).toNat = 0 := by rw [hsp]; rfl
    exact exec_call_of_sp_zero hi hzero

/-- RET below stack pointer 255 moves the pointer up and goes to the byte that was on top. -/
theorem exec_ret_of_sp_ne {s : State} (hsp : (s.reg .sp).toNat ≠ 255) :
    exec .ret s = .next ((s.setReg .sp s.shrunkSp).setPc (s.byteAt (s.reg .sp).toNat).toNat) :=
  exec_of_ok_of_control (i := .ret) (by simp [Instr.mnemonic]) (handleRet_eq_ok.2 ⟨hsp, rfl⟩)

/-- RET at stack pointer 255 faults with the would-be pointer 256. -/
theorem exec_ret_of_sp_eq {s : State} (hsp : (s.reg .sp).toNat = 255) :
    exec .ret s = .next (s.raise (.stackPointerOutOfRange 256)) :=
  exec_of_error (i := .ret) (handleRet_eq_error.2 ⟨hsp, rfl⟩)

/-- Settles O19: the stack pointer alone decides between the fault and the return, which writes two fields. -/
theorem retGoesToTheTopOfTheStack : Obligations.RetGoesToTheTopOfTheStack := by
  refine ⟨rfl, fun s => ⟨fun hsp => ?_, exec_ret_of_sp_eq⟩⟩
  have hne : (s.reg .sp).toNat ≠ 255 := by omega
  refine ⟨_, exec_ret_of_sp_ne hne, setPc_pc _ _, ?_, fun r hr => ?_, rfl, rfl, fun _ => rfl, rfl, rfl, rfl⟩
  · rw [setPc_reg, setReg_reg_self, shrunkSp_toNat hne]
  · rw [setPc_reg, setReg_reg_ne _ _ (by simpa using hr)]

/-- JMP on a byte that names a register answers the jump to the register's value. -/
theorem exec_jmp_of_register {a : Byte} {i : Reg} (s : State) (h : regIndex a = .ok i) :
    exec (.jmp a) s = .next (advance (opc .jmp) (s.setPc (s.reg i).toNat)) :=
  exec_of_ok (i := .jmp a) (jumpTo_eq_ok.2 ⟨i, h, rfl⟩)

/-- JMP on a byte that names no register faults with that byte. -/
theorem exec_jmp_of_le {a : Byte} (s : State) (h : 8 ≤ a.toNat) :
    exec (.jmp a) s = .next (s.raise (.regOutOfRange a)) :=
  exec_of_error (i := .jmp a) (jumpTo_eq_error.2 (regIndex_of_le h))

/-- Settles O21: the register byte alone decides between the jump and the fault; the jump is a write of `pc`. -/
theorem jmpGoesToTheRegister : Obligations.JmpGoesToTheRegister := by
  intro s a
  refine ⟨rfl, fun i hi => ?_, exec_jmp_of_le s⟩
  have hjump : OnlyPc (s.reg i).toNat s (advance (opc .jmp) (s.setPc (s.reg i).toNat)) :=
    onlyPc_of_setPc (.jmp a) s _ (by simp [Instr.mnemonic])
  exact ⟨_, exec_jmp_of_register s hi, hjump⟩

end Sys2Proof.Machine

namespace Sys2Proof.Machine

/-! ### DivideByZero (`60_exceptions.md` rule R213) -/

/-- A two-operand ALU instruction on two registers raises what its operation raises. -/
theorem aluBinary_of_apply_error {op : BinaryOp} {a b : Byte} {i j : Reg} {s : State} {f : Fault}
    (ha : regIndex a = .ok i) (hb : regIndex b = .ok j) (h : applyBinary op (s.reg i) (s.reg j) = .error f) :
    aluBinary op a b s = .error f :=
  aluBinary_eq_error.2 (.inr (.inr ⟨i, j, ha, hb, h⟩))

/-- Settles O25: the operation raises on the zero divisor, so the handler does, and a raise changes nothing but `RUN`. -/
theorem divAndModByZeroFault : Obligations.DivAndModByZeroFault := by
  intro s a b i j ha hb hzero
  have hdiv : applyBinary .div (s.reg i) (s.reg j) = .error (.divideByZero .div) :=
    applyBinary_eq_error.2 ⟨hzero, .inl ⟨rfl, rfl⟩⟩
  have hmod : applyBinary .mod (s.reg i) (s.reg j) = .error (.divideByZero .mod) :=
    applyBinary_eq_error.2 ⟨hzero, .inr ⟨rfl, rfl⟩⟩
  exact ⟨exec_of_error (i := .div a b) (aluBinary_of_apply_error ha hb hdiv),
    exec_of_error (i := .mod a b) (aluBinary_of_apply_error ha hb hmod)⟩

/-! ### RegOutOfRange (`60_exceptions.md` rule R212) -/

/-- After an instruction of a running core, the recorded fault is the one its handler raised. -/
theorem exec_run_faulted_iff {i : Instr} {s t : State} (hrun : s.run = .running) (h : exec i s = .next t) (f : Fault) :
    t.run = .faulted f ↔ handlerOf i s = .error f := by
  rcases exec_eq_next.1 h with ⟨u, hu, rfl⟩ | ⟨e, he, rfl⟩
  · exact iff_of_false (run_of_completed hrun hu f) (by simp [hu])
  · simp [he]

/-- Among register bytes that are all below 8 there is no first bad one. -/
theorem find?_bad_byte_eq_none {bs : List Byte} (h : ∀ c ∈ bs, c.toNat < 8) :
    bs.find? (fun c => decide (8 ≤ c.toNat)) = none := by
  rw [List.find?_eq_none]
  intro c hc
  have := h c hc
  simp only [decide_eq_true_eq]
  omega

/-- A handler raises RegOutOfRange exactly for the first byte it uses that names no register: the tests of the register
bytes come before everything else a handler can raise. -/
theorem handlerOf_eq_regOutOfRange_iff (i : Instr) (s : State) (b : Byte) :
    handlerOf i s = .error (.regOutOfRange b) ↔
      (Instr.usedRegisterBytes i s).find? (fun c => decide (8 ≤ c.toNat)) = some b := by
  cases hh : handlerOf i s with
  | ok u => simp [find?_bad_byte_eq_none (handler_ok_regs hh)]
  | error f =>
    rcases handler_error_cases hh with
      ⟨c, rfl, hc⟩ | ⟨hgood, ⟨d, rfl⟩ | ⟨-, -, rfl⟩ | ⟨-, -, rfl⟩ | ⟨a, -, rfl, -⟩⟩
    · simp [hc]
    all_goals simp [find?_bad_byte_eq_none hgood]

/-- Settles O36: the recorded fault is the handler's, and the handler names the first bad byte it uses. -/
theorem registerFaultIsTheFirstBadByte : Obligations.RegisterFaultIsTheFirstBadByte := fun i s _ b hrun h =>
  (exec_run_faulted_iff hrun h (.regOutOfRange b)).trans (handlerOf_eq_regOutOfRange_iff i s b)

/-! ### MemOutOfRange (`60_exceptions.md` rule R211) -/

/-- No handler raises MemOutOfRange: the stack accesses are always in range (`20_memory.md` rule R67). -/
theorem handlerOf_ne_memOutOfRange (i : Instr) (s : State) (addr : Int) (k : AccessKind) :
    handlerOf i s ≠ .error (.memOutOfRange addr k) := by
  intro h
  rcases handler_error_cases h with ⟨b, hf, -⟩ | ⟨-, ⟨d, hf⟩ | ⟨-, -, hf⟩ | ⟨-, -, hf⟩ | ⟨a, -, hf, -⟩⟩ <;> cases hf

/-- An unrecognized opcode of a running core raises no MemOutOfRange, under either policy. -/
theorem unsupported_run_ne_memOutOfRange {s : State} (hrun : s.run = .running) (ir : Byte) (addr : Int) (k : AccessKind) :
    (unsupported ir s).run ≠ .faulted (.memOutOfRange addr k) := by
  cases hp : s.unsupportedPolicy with
  | fatal => simp [unsupported_fatal ir hp]
  | skip => simp [unsupported_skip ir hp, hrun]

/-- A step of a running core records MemOutOfRange exactly when its fetch raises it. -/
theorem step_run_memOutOfRange_iff {s t : State} (hrun : s.run = .running) (h : step s = .next t) (addr : Int)
    (k : AccessKind) : t.run = .faulted (.memOutOfRange addr k) ↔ fetch s = .error (.memOutOfRange addr k) := by
  rcases step_cases h with ⟨hhalt, -⟩ | ⟨-, ⟨f, rfl, hf, -⟩ | ⟨hpc, -, rfl⟩ | ⟨hpc, i, rest, -, hexec⟩⟩
  · rw [hrun] at hhalt
    cases hhalt
  · simp [hf]
  · simp [fetch_eq_ok hpc, unsupported_run_ne_memOutOfRange hrun]
  · simp [exec_run_faulted_iff hrun (exec_eq_next.2 hexec), handlerOf_ne_memOutOfRange, fetch_eq_ok hpc]

/-- With `pc` in 0 to 256 the fetch raises MemOutOfRange in three cases, always with address 256
(`40_engine_cycle.md` rules R111 and R113). -/
theorem fetch_eq_memOutOfRange_iff {s : State} (hpc : s.pc ≤ 256) (addr : Int) (k : AccessKind) :
    fetch s = .error (.memOutOfRange addr k) ↔
      addr = 256 ∧ ((s.pc = 256 ∧ k = .fetchOpcode) ∨ (s.pc = 255 ∧ k = .fetchOperandA) ∨
        (s.pc = 254 ∧ k = .fetchOperandB)) := by
  have hcases : s.pc ≤ 253 ∨ s.pc = 254 ∨ s.pc = 255 ∨ s.pc = 256 := by omega
  rcases hcases with hlow | heq | heq | heq
  · have h4 : s.pc ≠ 254 := by omega
    have h5 : s.pc ≠ 255 := by omega
    have h6 : s.pc ≠ 256 := by omega
    simp [fetch_eq_ok hlow, h4, h5, h6]
  all_goals simp [fetch_eq_error (s := s) (by omega), heq, eq_comm]

/-- Settles O34: outside the memory both primitives take their error branch; in a step only the fetch can raise
MemOutOfRange, and the invariant keeps `pc` where the fetch has three ways to do so. -/
theorem memoryFaultsComeFromFetchOnly : Obligations.MemoryFaultsComeFromFetchOnly := by
  refine ⟨fun s addr v k hout => ?_, fun s t addr k hinv hrun h => ?_⟩
  · have hno := (inMemory_eq_false_iff addr).2 hout
    exact ⟨memRead_of_not_inMemory k hno, memWrite_of_not_inMemory v k hno⟩
  · exact (step_run_memOutOfRange_iff hrun h addr k).trans (fetch_eq_memOutOfRange_iff hinv.pcRange addr k)

end Sys2Proof.Machine

namespace Sys2Proof

/-! ### The round trip of decoder and encoder (`30_encoding.md` sections 1 to 3) -/

@[simp] theorem withOperands_mnemonic (m : Mnemonic) (opA opB : Byte) : (m.withOperands opA opB).mnemonic = m := by
  cases m <;> rfl

/-- A handler keeps as many operand bytes as bits 7:6 of its opcode announce. -/
theorem withOperands_operands (m : Mnemonic) (opA opB : Byte) :
    (m.withOperands opA opB).operands = [opA, opB].take (operandCount (opc m)) := by
  cases m <;> rfl

/-- The operand bytes of an instruction, followed by any bytes, are read back as the instruction and those bytes. -/
theorem decodeOperands_operands (i : Instr) (rest : List Byte) :
    decodeOperands i.mnemonic (opc i.mnemonic) (i.operands ++ rest) = .ok (i, rest) := by
  unfold decodeOperands
  rw [operandCount_opc]
  cases i <;> rfl

/-- What is read as the operands of a mnemonic is an instruction of that mnemonic, and all its operand bytes are kept. -/
theorem operands_of_decodeOperands {m : Mnemonic} {bs rest : List Byte} {i : Instr}
    (h : decodeOperands m (opc m) bs = .ok (i, rest)) : i.mnemonic = m ∧ i.operands ++ rest = bs := by
  unfold decodeOperands at h
  split at h
  case h_4 => cases h
  all_goals
    rename_i hcount
    obtain ⟨rfl, rfl⟩ := Prod.mk.inj (Except.ok.inj h)
    simp [withOperands_operands, hcount]

/-- Bytes decode to an instruction and a rest exactly when they are its encoding followed by that rest. -/
theorem decode_eq_ok_iff {bs rest : List Byte} {i : Instr} : decode bs = .ok (i, rest) ↔ encode i ++ rest = bs := by
  constructor
  · intro h
    cases bs with
    | nil => cases h
    | cons ir tail =>
      have hlookup := opcode_of_decode h
      rw [decode_of_recognized hlookup, opc_of_lookup hlookup] at h
      obtain ⟨-, htail⟩ := operands_of_decodeOperands h
      rw [encode, List.cons_append, htail, opc_of_lookup hlookup]
  · rintro rfl
    rw [encode, List.cons_append, decode_of_recognized (lookup_opc _), decodeOperands_operands]

/-- Settles O1: `decode` inverts `encode`, read from right to left. -/
theorem decodeOfEncodeIsTheInstruction : Obligations.DecodeOfEncodeIsTheInstruction := fun _ _ => decode_eq_ok_iff.2 rfl

/-- Settles O2: `decode` inverts `encode`, read from left to right. -/
theorem encodeOfDecodedIsTheBytes : Obligations.EncodeOfDecodedIsTheBytes := fun _ _ _ => decode_eq_ok_iff.1

/-- Settles O3: the first byte is the opcode of the mnemonic, whose three bit fields are known. -/
theorem opcodeBitsGiveLengthAndClass : Obligations.OpcodeBitsGiveLengthAndClass := by
  intro i
  have hlength : (encode i).length = 1 + operandCount (opc i.mnemonic) := by
    rw [operandCount_opc, encode, List.length_cons, Nat.add_comm]
  refine ⟨opc i.mnemonic, i.operands, rfl, hlength, ?_, ?_⟩
  · rw [aluClass_opc, decide_eq_true_iff]
  · rw [pcIsSetByHandler_opc, decide_eq_true_iff]

/-- The first fetched byte of an instruction counts its operand bytes. -/
theorem operands_length_of_decode {ir : Byte} {tail rest : List Byte} {i : Instr}
    (h : decode (ir :: tail) = .ok (i, rest)) : i.operands.length = operandCount ir := by
  rw [opc_of_lookup (opcode_of_decode h), operandCount_opc]

/-- Settles O6: the bytes of an instruction of known length end before the bytes that are exchanged, so these come back as
the rest. -/
theorem bytesPastTheLengthAreIgnored : Obligations.BytesPastTheLengthAreIgnored := by
  intro ir a b a' b' i rest h
  have hlength := operands_length_of_decode h
  have hbytes := decode_eq_ok_iff.1 h
  rw [encode, List.cons_append] at hbytes
  obtain ⟨hir, htail⟩ := List.cons.inj hbytes
  refine ⟨fun h0 => ⟨[a', b'], ?_⟩, fun h1 => ⟨[b'], ?_⟩⟩
  · rw [h0, List.length_eq_zero_iff] at hlength
    rw [decode_eq_ok_iff, encode, hir, hlength]
    rfl
  · rw [h1, List.length_eq_one_iff] at hlength
    obtain ⟨c, hc⟩ := hlength
    rw [hc] at htail
    obtain ⟨rfl, -⟩ := List.cons.inj htail
    rw [decode_eq_ok_iff, encode, hir, hc]
    rfl

/-- No instruction has more than two operand bytes. -/
theorem operandCount_opc_le (m : Mnemonic) : operandCount (opc m) ≤ 2 := by
  cases m <;> decide

/-- A byte with bits 7:6 = 11 would announce three operand bytes, so it is no opcode. -/
theorem lookup_eq_none_of_operandCount_eq_three {ir : Byte} (h : operandCount ir = 3) : lookup ir = none := by
  cases hlookup : lookup ir with
  | none => rfl
  | some m =>
    have hle := operandCount_opc_le m
    rw [← opc_of_lookup hlookup, h] at hle
    omega

/-- Of each quarter of the opcode map (one value of bits 7:6), the number of bytes that are no opcode: 2, 9, 12 and none of
the 64 are opcodes (`30_encoding.md` section 4). -/
theorem countP_unrecognized_quarters :
    [0, 64, 128, 192].map (fun q => (List.range' q 64).countP fun n => (lookup (BitVec.ofNat 8 n)).isNone) =
      [62, 55, 52, 64] := by
  decide

/-- Settles O4: the 256 bytes are counted by quarters of the opcode map. -/
theorem otherBytesAreUnrecognized : Obligations.OtherBytesAreUnrecognized := by
  refine ⟨?_, fun _ => lookup_eq_none_of_operandCount_eq_three⟩
  have hquarters : List.range 256 = [0, 64, 128, 192].flatMap fun q => List.range' q 64 := by
    rw [List.range_eq_range', ← List.range'_append_1 (m := 64) (n := 192), ← List.range'_append_1 (m := 64) (n := 128),
      ← List.range'_append_1 (m := 64) (n := 64)]
    rfl
  rw [hquarters, List.countP_flatMap]
  exact congrArg List.sum countP_unrecognized_quarters

/-- Settles O5: each of the words is the encoding of its instruction; the last byte is no opcode. -/
theorem knownWordsDecode : Obligations.KnownWordsDecode :=
  ⟨decode_eq_ok_iff.2 rfl, decode_eq_ok_iff.2 rfl, decode_eq_ok_iff.2 rfl, decode_eq_ok_iff.2 rfl, decode_eq_ok_iff.2 rfl,
    decode_eq_ok_iff.2 rfl, decode_of_unrecognized rfl⟩

end Sys2Proof

namespace Sys2Proof.Machine

/-! ### The invariant of a run (`10_state.md` sections 2 and 3, `60_exceptions.md` section 1) -/

/-- The state after reset meets the invariant. -/
theorem reset_inv : State.reset.Inv where
  memory := Memory.wf_nil
  pcRange := Nat.zero_le _
  flags := .inl rfl
  cause := fun _ h => by cases h

/-- Settles O47: nothing is listed in memory, `pc` and the flags are zero, and no fault is recorded. -/
theorem resetMeetsTheInvariant : Obligations.ResetMeetsTheInvariant := reset_inv

/-- A raise keeps the invariant when the fault is one that can be recorded here. -/
theorem State.Inv.raise {s : State} {f : Fault} (hs : s.Inv) (hf : f.recordable s.pc s.unsupportedPolicy) :
    (s.raise f).Inv where
  memory := hs.memory
  pcRange := hs.pcRange
  flags := hs.flags
  cause := fun g hg => by
    cases hg
    exact hf

/-- A fetch from `pc` in 254 to 256 raises one of the three recordable memory faults (`60_exceptions.md` rule R211). -/
theorem recordable_of_fetch_error {s : State} {f : Fault} (hpc : s.pc ≤ 256) (hlow : 253 < s.pc)
    (hf : fetch s = .error f) : f.recordable s.pc s.unsupportedPolicy := by
  rw [fetch_eq_error hlow] at hf
  obtain rfl := Except.error.inj hf
  have hcases : s.pc = 254 ∨ s.pc = 255 ∨ s.pc = 256 := by omega
  rcases hcases with h | h | h <;> simp [h, Fault.recordable]

/-- What a handler raises can be recorded (`60_exceptions.md` rules R212, R213 and R217). -/
theorem recordable_of_handler_error {i : Instr} {s : State} {f : Fault} (h : handlerOf i s = .error f) (pc : Nat)
    (policy : UnsupportedPolicy) : f.recordable pc policy := by
  rcases handler_error_cases h with
    ⟨b, rfl, hb⟩ | ⟨-, ⟨d, rfl⟩ | ⟨-, -, rfl⟩ | ⟨-, -, rfl⟩ | ⟨a, -, rfl, -⟩⟩
  · have hbad := List.find?_some hb
    exact of_decide_eq_true (p := 8 ≤ b.toNat) hbad
  · trivial
  · exact .inl rfl
  · exact .inr rfl
  · exact .inr rfl

/-- An unrecognized opcode keeps the invariant of a running core under either policy (`40_engine_cycle.md` rule R114). -/
theorem State.Inv.unsupported {s : State} {ir : Byte} (hs : s.Inv) (hrun : s.run = .running) (hpc : s.pc ≤ 253)
    (hlookup : lookup ir = none) : (unsupported ir s).Inv := by
  cases hp : s.unsupportedPolicy with
  | fatal =>
    rw [unsupported_fatal ir hp]
    exact hs.raise ⟨hp, rfl, hlookup⟩
  | skip =>
    rw [unsupported_skip ir hp]
    have hnext : s.pc + 1 ≤ Config.memSize := by
      rw [Config.memSize]
      omega
    exact ⟨hs.memory, hnext, hs.flags, fun f hf => absurd (hrun.symm.trans hf) (by simp)⟩

/-- After a completed instruction fetched at 0 to 253, `pc` is in 0 to 256. -/
theorem completed_pc_le {i : Instr} {s u : State} (hpc : s.pc ≤ 253) (hu : handlerOf i s = .ok u) :
    (advance (opc i.mnemonic) u).pc ≤ 256 := by
  cases h4 : pcIsSetByHandler (opc i.mnemonic) with
  | true => exact (completed_pc_le_of_set hpc hu h4).trans (by omega)
  | false =>
    have hle := operandCount_opc_le i.mnemonic
    rw [completed_pc_of_not_set hu h4]
    omega

/-- A completed instruction of a running core keeps the invariant: the one cell it can store is in the memory, and the flags
it can write are those of a compare. -/
theorem State.Inv.completed {i : Instr} {s u : State} (hs : s.Inv) (hrun : s.run = .running) (hpc : s.pc ≤ 253)
    (hu : handlerOf i s = .ok u) : (advance (opc i.mnemonic) u).Inv := by
  obtain ⟨-, -, -, hmem, hfl, -⟩ := handler_ok_frame hu
  refine ⟨?_, completed_pc_le hpc hu, ?_, fun f hf => absurd hf (run_of_completed hrun hu f)⟩
  · rw [advance_mem]
    rcases hmem with hsame | ⟨-, -, v, hset⟩
    · rw [hsame]
      exact hs.memory
    · have hcell : (s.reg .sp).toNat - 1 < Config.memSize := lt_of_le_of_lt (Nat.sub_le _ _) (s.reg .sp).isLt
      rw [hset]
      exact Memory.set_wf v hs.memory hcell
  · rw [advance_fl]
    rcases hfl with hsame | ⟨-, hlegal⟩
    · rw [hsame]
      exact hs.flags
    · exact hlegal

/-- Settles O48: each of the things a step can do keeps the invariant. -/
theorem oneStepKeepsTheInvariant : Obligations.OneStepKeepsTheInvariant := by
  intro s t hs hstep
  rcases step_cases hstep with
    ⟨-, rfl⟩ | ⟨hrun, ⟨f, rfl, hf, hlow⟩ | ⟨hpc, hlookup, rfl⟩ | ⟨hpc, i, rest, -, hexec⟩⟩
  · exact hs
  · exact hs.raise (recordable_of_fetch_error hs.pcRange hlow hf)
  · exact hs.unsupported hrun hpc hlookup
  · rcases hexec with ⟨u, hu, rfl⟩ | ⟨f, hf, rfl⟩
    · exact hs.completed hrun hpc hu
    · exact hs.raise (recordable_of_handler_error hf _ _)

end Sys2Proof.Machine

namespace Sys2Proof.Machine

/-! ### Registers (`10_state.md` section 1) -/

/-- Settles O7: the byte alone decides between the register and the fault. -/
theorem registerByteNamesOrFaults : Obligations.RegisterByteNamesOrFaults := by
  refine fun b => ⟨fun hle => ?_, regIndex_of_le⟩
  obtain ⟨r, hr⟩ := regIndex_of_lt (b := b) (by omega)
  exact ⟨r, hr, (regIndex_eq_ok.1 hr).symm⟩

/-- A write to a register leaves every other register as it was. -/
theorem setReg_sameRegsBut (s : State) (r : Reg) (v : Word) : SameRegsBut [r] s (s.setReg r v) :=
  fun _ hq => setReg_reg_ne s v (by simpa using hq)

/-- Settles O8: a register write touches the register file alone, and there the one register. -/
theorem registerReadsBackWhatWasWritten : Obligations.RegisterReadsBackWhatWasWritten := fun s r v =>
  ⟨setReg_reg_self s r v, setReg_sameRegsBut s r v, rfl, rfl, rfl, fun _ => rfl, rfl, rfl, rfl⟩

/-- The last of two writes to a register stays. -/
@[simp] theorem setReg_setReg_self (s : State) (r : Reg) (v w : Word) : (s.setReg r v).setReg r w = s.setReg r w := by
  cases r <;> rfl

/-- Writing to a register what it holds changes nothing. -/
@[simp] theorem setReg_reg_eq_self (s : State) (r : Reg) : s.setReg r (s.reg r) = s := by
  cases r <;> rfl

/-! ### HLT and PRN (`41_system_and_move.md`) -/

/-- A completed instruction that is none of the five control transfers moves `pc` past itself. -/
theorem exec_of_ok_of_not_control {i : Instr} {s t : State} (hi : i.mnemonic ∉ [Mnemonic.call, .ret, .jmp, .jeq, .jne])
    (h : handlerOf i s = .ok t) : exec i s = .next (t.setPc (t.pc + i.operands.length + 1)) := by
  rw [exec_of_ok h, advance_eq_setPc, if_neg hi]

/-- HLT makes `RUN` Halted and moves `pc` by 1 (rule R130). -/
theorem exec_hlt (s : State) : exec .hlt s = .next ((s.setRun .halted).setPc (s.pc + 1)) := rfl

/-- Settles O11: the state that HLT answers differs in `RUN` and `pc` alone. -/
theorem hltHaltsAndAdvances : Obligations.HltHaltsAndAdvances := fun s =>
  ⟨_, exec_hlt s, rfl, rfl, fun _ _ => rfl, rfl, fun _ => rfl, rfl, rfl, rfl⟩

/-- PRN on a byte that names a register emits the register and moves `pc` by 2 (rule R132). -/
theorem exec_prn_of_register {a : Byte} {i : Reg} (s : State) (h : regIndex a = .ok i) :
    exec (.prn a) s = .next ((s.emit (s.reg i)).setPc (s.pc + 2)) :=
  exec_of_ok_of_not_control (i := .prn a) (by simp [Instr.mnemonic]) (handlePrn_eq_ok.2 ⟨i, h, rfl⟩)

/-- PRN on a byte that names no register faults with that byte. -/
theorem exec_prn_of_le {a : Byte} (s : State) (h : 8 ≤ a.toNat) :
    exec (.prn a) s = .next (s.raise (.regOutOfRange a)) :=
  exec_of_error (i := .prn a) (handlePrn_eq_error.2 (regIndex_of_le h))

/-- Settles O13: the register byte alone decides between the emission and the fault. -/
theorem prnEmitsTheRegister : Obligations.PrnEmitsTheRegister := fun s _ =>
  ⟨fun _ hi => ⟨_, exec_prn_of_register s hi, rfl, rfl, fun _ _ => rfl, rfl, rfl, fun _ => rfl, rfl, rfl⟩,
    exec_prn_of_le s⟩

end Sys2Proof.Machine

namespace Sys2Proof.Machine

/-! ### POP (`42_stack.md` rules R141 and R142) -/

/-- The state with register `i` loaded from the top of the stack, before the stack pointer moves. -/
def State.loadTop (s : State) (i : Reg) : State := s.setReg i (s.byteAt (s.reg .sp).toNat)

@[simp] theorem loadTop_reg_self (s : State) (i : Reg) : (s.loadTop i).reg i = s.byteAt (s.reg .sp).toNat :=
  setReg_reg_self _ _ _

theorem loadTop_reg_ne (s : State) {i r : Reg} (h : r ≠ i) : (s.loadTop i).reg r = s.reg r := setReg_reg_ne _ _ h

/-- POP leaves `pc` to step 6: it is none of the five control transfers. -/
theorem pop_not_control (a : Byte) : (Instr.pop a).mnemonic ∉ [Mnemonic.call, .ret, .jmp, .jeq, .jne] := by
  simp [Instr.mnemonic]

/-- POP loads the register, then moves the stack pointer that is there after the load. -/
theorem exec_pop_of_register {a : Byte} {i : Reg} {s : State} (h : regIndex a = .ok i)
    (hsp : ((s.loadTop i).reg .sp).toNat ≠ 255) :
    exec (.pop a) s = .next (((s.loadTop i).setReg .sp (s.loadTop i).shrunkSp).setPc (s.pc + 2)) :=
  exec_of_ok_of_not_control (i := .pop a) (pop_not_control a) (handlePop_eq_ok.2 ⟨i, _, h, rfl, hsp, rfl⟩)

/-- POP faults with the would-be pointer 256 when the stack pointer that is there after the load is 255. -/
theorem exec_pop_of_sp_eq {a : Byte} {i : Reg} {s : State} (h : regIndex a = .ok i)
    (hsp : ((s.loadTop i).reg .sp).toNat = 255) :
    exec (.pop a) s = .next (s.raise (.stackPointerOutOfRange 256)) :=
  exec_of_error (i := .pop a) (handlePop_eq_error.2 (.inr ⟨i, h, hsp, rfl⟩))

/-- POP of a byte that names no register faults with that byte, whatever the stack pointer. -/
theorem exec_pop_of_le {a : Byte} (s : State) (h : 8 ≤ a.toNat) :
    exec (.pop a) s = .next (s.raise (.regOutOfRange a)) :=
  exec_of_error (i := .pop a) (handlePop_eq_error.2 (.inl (regIndex_of_le h)))

/-- Settles O15: a load into another register leaves the stack pointer, which then decides between the fault and the move. -/
theorem popLoadsTheTopOfTheStack : Obligations.PopLoadsTheTopOfTheStack := by
  refine fun s a => ⟨fun i hi hne hsp => ?_, fun i hi hne hsp => ?_, exec_pop_of_le s⟩
  · have hkept : (s.loadTop i).reg .sp = s.reg .sp := loadTop_reg_ne s hne.symm
    have hlt : ((s.loadTop i).reg .sp).toNat ≠ 255 := by
      rw [hkept]
      omega
    refine ⟨_, exec_pop_of_register hi hlt, ?_, ?_, fun r hr => ?_, rfl, rfl, rfl, fun _ => rfl, rfl, rfl, rfl⟩
    · rw [setPc_reg, setReg_reg_ne _ _ hne, loadTop_reg_self]
    · rw [setPc_reg, setReg_reg_self, shrunkSp_toNat hlt, hkept]
    · obtain ⟨hri, hrsp⟩ : r ≠ i ∧ r ≠ .sp := by simpa using hr
      rw [setPc_reg, setReg_reg_ne _ _ hrsp, loadTop_reg_ne s hri]
  · refine exec_pop_of_sp_eq hi ?_
    rw [loadTop_reg_ne s hne.symm, hsp]

/-- The byte 7 names the stack pointer (`10_state.md` rule R24). -/
theorem regIndex_seven : regIndex 7 = .ok .sp := rfl

/-- The stack pointer after it is decremented. -/
theorem grownSp_eq_sub_one {s : State} (h : 1 ≤ (s.reg .sp).toNat) : s.grownSp = s.reg .sp - 1 := by
  have hlt := (s.reg .sp).isLt
  apply BitVec.eq_of_toNat_eq
  rw [grownSp_toNat, BitVec.toNat_sub, show (1 : Word).toNat = 1 from rfl]
  omega

/-- POP R7 writes the stack pointer only, with the popped byte plus 1: the move overwrites the load. -/
theorem exec_pop_sp_wroteRegister {s : State} (h : (s.byteAt (s.reg .sp).toNat).toNat ≠ 255) :
    ∃ t, exec (.pop 7) s = .next t ∧ WroteRegister .sp ((s.byteAt (s.reg .sp).toNat).toNat + 1) 2 s t := by
  have hsp : ((s.loadTop .sp).reg .sp).toNat ≠ 255 := by rwa [loadTop_reg_self]
  have hwrote : WroteRegister .sp (s.loadTop .sp).shrunkSp.toNat 2 s
      ((s.setReg .sp (s.loadTop .sp).shrunkSp).setPc (s.pc + 2)) :=
    wroteRegister_of_setReg (.pop 7) s .sp _ (pop_not_control 7)
  rw [shrunkSp_toNat hsp, loadTop_reg_self] at hwrote
  refine ⟨_, exec_pop_of_register regIndex_seven hsp, ?_⟩
  rwa [State.loadTop, setReg_setReg_self]

/-- Settles O16: for register 7 PUSH reads the decremented pointer, and POP moves the loaded one. -/
theorem pushAndPopOfTheStackPointer : Obligations.PushAndPopOfTheStackPointer := by
  refine fun s hm => ⟨fun hsp => ?_, fun htop => exec_pop_sp_wroteRegister (by omega), fun htop => ?_⟩
  · refine ⟨_, exec_push_of_register regIndex_seven (by omega), ?_⟩
    rw [setReg_reg_self, ← grownSp_eq_sub_one hsp]
    exact pushedByte_of_push hm _ _
  · refine exec_pop_of_sp_eq regIndex_seven ?_
    rw [loadTop_reg_self, htop]

/-! ### PUSH then POP, CALL then RET (`42_stack.md` rule R141, `43_control_transfer.md` rule R150) -/

/-- The state after a byte is pushed: what PUSH and CALL leave, but for `pc`. -/
abbrev State.pushByte (s : State) (v : Byte) : State :=
  (s.setReg .sp s.grownSp).setByte ((s.reg .sp).toNat - 1) v

/-- The byte pushed is on top of the stack. -/
theorem pushByte_top {s : State} (hm : s.mem.wf) (v : Byte) :
    (s.pushByte v).byteAt ((s.pushByte v).reg .sp).toNat = v := by
  rw [setByte_reg, setReg_reg_self, grownSp_toNat, byteAt_of_push hm, if_pos rfl]

/-- After a push the stack pointer is not 255, so a pop does not fault. -/
theorem pushByte_sp_ne {s : State} (hsp : 1 ≤ (s.reg .sp).toNat) (v : Byte) :
    ((s.pushByte v).reg .sp).toNat ≠ 255 := by
  have hlt := (s.reg .sp).isLt
  rw [setByte_reg, setReg_reg_self, grownSp_toNat]
  omega

/-- The increment after a push restores the stack pointer. -/
theorem pushByte_shrunkSp {s : State} (hsp : 1 ≤ (s.reg .sp).toNat) (v : Byte) :
    (s.pushByte v).shrunkSp = s.reg .sp := by
  apply BitVec.eq_of_toNat_eq
  rw [shrunkSp_toNat (pushByte_sp_ne hsp v), setByte_reg, setReg_reg_self, grownSp_toNat]
  omega

/-- Once the stack pointer has moved down and up again, every register holds what it held. -/
theorem pushByte_shrink_reg {s : State} (hsp : 1 ≤ (s.reg .sp).toNat) (v : Byte) (r : Reg) :
    ((s.pushByte v).setReg .sp (s.pushByte v).shrunkSp).reg r = s.reg r := by
  rw [setReg_reg, pushByte_shrunkSp hsp, setByte_reg, setReg_reg]
  split
  · subst r
    rfl
  · rfl

/-- A pushed byte changes no cell but the one below the stack pointer. -/
theorem pushByte_sameMemoryBut {s : State} (hm : s.mem.wf) (v : Byte) :
    SameMemoryBut ((s.reg .sp).toNat - 1) s (s.pushByte v) := by
  intro c hc
  rw [byteAt_of_push hm, if_neg hc]

/-- A register that holds the top of the stack is loaded with what it holds. -/
theorem loadTop_eq_self {s : State} {i : Reg} (h : s.byteAt (s.reg .sp).toNat = s.reg i) : s.loadTop i = s := by
  rw [State.loadTop, h, setReg_reg_eq_self]

/-- Settles O17: the byte on top is what the register holds after the PUSH, so the load of the POP changes nothing and its
move takes the stack pointer back. -/
theorem pushThenPopRestores : Obligations.PushThenPopRestores := by
  intro s a i hm hi hsp
  let v := (s.setReg .sp s.grownSp).reg i
  let t := (s.pushByte v).setPc (s.pc + 2)
  have hload : t.loadTop i = t := loadTop_eq_self (pushByte_top hm v)
  have hpop : exec (.pop a) t = .next ((t.setReg .sp t.shrunkSp).setPc (t.pc + 2)) := by
    have h := exec_pop_of_register (s := t) hi
    rw [hload] at h
    exact h (pushByte_sp_ne hsp v)
  exact ⟨t, _, exec_push_of_register hi (by omega), hpop, fun r _ => pushByte_shrink_reg hsp v r, rfl, rfl, rfl,
    pushByte_sameMemoryBut hm v, rfl, rfl, rfl⟩

/-- Settles O20: the return address is on top of the stack, and the stack pointer moves back up. -/
theorem callThenRetReturns : Obligations.CallThenRetReturns := by
  intro s a i hm hpc hi hsp
  let v : Byte := BitVec.ofNat 8 (s.pc + 2)
  refine ⟨_, _, exec_call_of_register hi (by omega), exec_ret_of_sp_ne (pushByte_sp_ne hsp v), ?_,
    fun r _ => pushByte_shrink_reg hsp v r, rfl, rfl, pushByte_sameMemoryBut hm v, rfl, rfl, rfl⟩
  rw [setPc_pc, setPc_byteAt, setPc_reg, pushByte_top hm v, returnAddress_toNat hpc]

/-! ### A stored byte is fetched (`20_memory.md` section 8) -/

/-- Settles O46: the cell PUSH stores is the one `pc` has moved to, and the two cells after it are as before. -/
theorem aStoreIsSeenByTheNextFetch : Obligations.AStoreIsSeenByTheNextFetch := by
  intro s a i hm hi hsp hpc
  let v := (s.setReg .sp s.grownSp).reg i
  have hread : ∀ c, (s.pushByte v).byteAt c = if c = s.pc + 2 then v else s.byteAt c := by
    intro c
    rw [byteAt_of_push hm, hsp]
    rfl
  have hpc' : ((s.pushByte v).setPc (s.pc + 2)).pc ≤ 253 := by
    rw [setPc_pc]
    omega
  refine ⟨_, exec_push_of_register hi (by omega), ?_⟩
  rw [fetch_eq_ok hpc']
  simp only [setPc_byteAt, hread]
  simp [v]

end Sys2Proof.Machine

namespace Sys2Proof.Machine

/-! ### JEQ and JNE (`43_control_transfer.md` rules R153 and R154) -/

/-- A control transfer whose handler writes `pc` answers a state in which only `pc` changed. -/
theorem exec_onlyPc {i : Instr} {s : State} {p : Nat} (h : handlerOf i s = .ok (s.setPc p))
    (hi : i.mnemonic ∈ [Mnemonic.call, .ret, .jmp, .jeq, .jne] := by simp [Instr.mnemonic]) :
    ∃ t, exec i s = .next t ∧ OnlyPc p s t :=
  ⟨_, exec_of_ok h, onlyPc_of_setPc i s p hi⟩

theorem jumpIf_taken {c : Bool} {a : Byte} {i : Reg} (s : State) (hc : c = true) (h : regIndex a = .ok i) :
    jumpIf c a s = .ok (s.setPc (s.reg i).toNat) :=
  jumpIf_eq_ok.2 (.inl ⟨hc, i, h, rfl⟩)

/-- A jump that is not taken does not look at its operand byte (`92_eei_decisions.md` D28). -/
theorem jumpIf_untaken {c : Bool} (a : Byte) (s : State) (hc : c = false) : jumpIf c a s = .ok (s.setPc (s.pc + 2)) :=
  jumpIf_eq_ok.2 (.inr ⟨hc, rfl⟩)

theorem jumpIf_of_le {c : Bool} {a : Byte} (s : State) (hc : c = true) (h : 8 ≤ a.toNat) :
    jumpIf c a s = .error (.regOutOfRange a) :=
  jumpIf_eq_error.2 ⟨hc, regIndex_of_le h⟩

/-- Settles O22: JEQ is the conditional jump on Equal, JNE the one on its complement. -/
theorem jeqAndJneBranchOnEqual : Obligations.JeqAndJneBranchOnEqual := by
  intro s a
  have hset : s.flE = true → (!s.flE) = false := fun h => by simp [h]
  have hclear : s.flE = false → (!s.flE) = true := fun h => by simp [h]
  exact ⟨fun _ hi hE => exec_onlyPc (i := .jeq a) (jumpIf_taken s hE hi),
    fun _ hi hE => exec_onlyPc (i := .jne a) (jumpIf_taken s (hclear hE) hi),
    fun hE => exec_onlyPc (i := .jeq a) (jumpIf_untaken a s hE),
    fun hE => exec_onlyPc (i := .jne a) (jumpIf_untaken a s (hset hE)),
    fun ha hE => exec_of_error (i := .jeq a) (jumpIf_of_le s hE ha),
    fun ha hE => exec_of_error (i := .jne a) (jumpIf_of_le s (hclear hE) ha)⟩

end Sys2Proof.Machine

namespace Sys2Proof.Machine

/-! ### The ALU (`44_alu.md` section 2) -/

/-- The reduction modulo 256 leaves a word as it is. -/
@[simp] theorem wrap_toNat_self (w : Word) : wrap (w.toNat : Int) = w := by
  apply BitVec.eq_of_toNat_eq
  rw [wrap_natCast_toNat, Nat.mod_eq_of_lt w.isLt]

/-- An instruction whose handler writes a register, and not `pc`, has the frame of a register write. -/
theorem exec_wroteRegister {i : Instr} {s : State} {d : Reg} {v : Word} {n : Nat}
    (h : handlerOf i s = .ok (s.setReg d v)) (hv : v.toNat = n)
    (hi : i.mnemonic ∉ [Mnemonic.call, .ret, .jmp, .jeq, .jne] := by simp [Instr.mnemonic]) :
    ∃ t, exec i s = .next t ∧ WroteRegister d n (i.operands.length + 1) s t := by
  subst hv
  exact ⟨_, exec_of_ok h, wroteRegister_of_setReg i s d v hi⟩

/-- A two-operand ALU instruction on two registers writes what its operation gives to the first. -/
theorem aluBinary_of_apply_ok {op : BinaryOp} {a b : Byte} {i j : Reg} {s : State} {r : Word} (ha : regIndex a = .ok i)
    (hb : regIndex b = .ok j) (h : applyBinary op (s.reg i) (s.reg j) = .ok r) :
    aluBinary op a b s = .ok (s.setReg i r) :=
  aluBinary_eq_ok.2 ⟨i, j, r, ha, hb, h, rfl⟩

theorem aluUnary_of_register {op : UnaryOp} {a : Byte} {i : Reg} (s : State) (ha : regIndex a = .ok i) :
    aluUnary op a s = .ok (s.setReg i (applyUnary op (s.reg i))) :=
  aluUnary_eq_ok.2 ⟨i, ha, rfl⟩

/-- Settles O23: the exact result on integers is reduced modulo 256 (rules R173 to R175). -/
theorem addSubMulWrap : Obligations.AddSubMulWrap := by
  intro s a b i j ha hb
  exact ⟨exec_wroteRegister (i := .add a b) (aluBinary_of_apply_ok ha hb rfl)
      (wrap_natCast_toNat ((s.reg i).toNat + (s.reg j).toNat)),
    exec_wroteRegister (i := .sub a b) (aluBinary_of_apply_ok ha hb rfl) (wrap_toNat _),
    exec_wroteRegister (i := .mul a b) (aluBinary_of_apply_ok ha hb rfl)
      (wrap_natCast_toNat ((s.reg i).toNat * (s.reg j).toNat))⟩

/-- DIV by a nonzero divisor gives the unsigned quotient (rule R176). -/
theorem applyBinary_div {a b : Word} (h : b.toNat ≠ 0) : applyBinary .div a b = .ok (a / b) := by
  rw [applyBinary, if_neg h, ← BitVec.toNat_udiv, wrap_toNat_self]

/-- MOD by a nonzero divisor gives the unsigned remainder (rule R177). -/
theorem applyBinary_mod {a b : Word} (h : b.toNat ≠ 0) : applyBinary .mod a b = .ok (a % b) := by
  rw [applyBinary, if_neg h, ← BitVec.toNat_umod, wrap_toNat_self]

/-- Settles O24: quotient and remainder are those of the division of natural numbers. -/
theorem divAndModOfANonzeroDivisor : Obligations.DivAndModOfANonzeroDivisor := by
  intro s a b i j ha hb hne
  obtain ⟨t, ht, htw⟩ := exec_wroteRegister (i := .div a b)
    (aluBinary_of_apply_ok ha hb (applyBinary_div hne)) BitVec.toNat_udiv
  obtain ⟨u, hu, huw⟩ := exec_wroteRegister (i := .mod a b)
    (aluBinary_of_apply_ok ha hb (applyBinary_mod hne)) BitVec.toNat_umod
  exact ⟨t, u, _, _, ht, hu, htw, huw, Nat.div_add_mod' _ _, Nat.mod_lt _ (Nat.pos_of_ne_zero hne)⟩

theorem applyBinary_and (a b : Word) : applyBinary .and a b = .ok (a &&& b) := by
  rw [applyBinary, ← BitVec.toNat_and, wrap_toNat_self]

theorem applyBinary_or (a b : Word) : applyBinary .or a b = .ok (a ||| b) := by
  rw [applyBinary, ← BitVec.toNat_or, wrap_toNat_self]

theorem applyBinary_xor (a b : Word) : applyBinary .xor a b = .ok (a ^^^ b) := by
  rw [applyBinary, ← BitVec.toNat_xor, wrap_toNat_self]

/-- An instruction that writes a word to a register writes it bit by bit. -/
theorem exec_wroteBits {i : Instr} {s : State} {d : Reg} {v : Word} {bit : Nat → Bool}
    (h : handlerOf i s = .ok (s.setReg d v)) (hbit : ∀ k, v.getLsbD k = bit k)
    (hi : i.mnemonic ∉ [Mnemonic.call, .ret, .jmp, .jeq, .jne] := by simp [Instr.mnemonic]) :
    ∃ t n, exec i s = .next t ∧ WroteRegister d n (i.operands.length + 1) s t ∧ ∀ k, n.testBit k = bit k := by
  obtain ⟨t, ht, hw⟩ := exec_wroteRegister h rfl hi
  exact ⟨t, _, ht, hw, hbit⟩

/-- Settles O26: the operations are those of the words, whose bits are known (rules R178 to R180). -/
theorem andOrXorWorkBitByBit : Obligations.AndOrXorWorkBitByBit := by
  intro s a b i j ha hb
  exact ⟨exec_wroteBits (i := .and a b) (aluBinary_of_apply_ok ha hb (applyBinary_and _ _))
      fun _ => BitVec.getLsbD_and,
    exec_wroteBits (i := .or a b) (aluBinary_of_apply_ok ha hb (applyBinary_or _ _))
      fun _ => BitVec.getLsbD_or,
    exec_wroteBits (i := .xor a b) (aluBinary_of_apply_ok ha hb (applyBinary_xor _ _))
      fun _ => BitVec.getLsbD_xor⟩

/-- A left shift multiplies by a power of two, modulo 256 (rule R181). -/
theorem wrap_shiftLeft_toNat (a n : Nat) : (wrap (a <<< n : Nat)).toNat = (a * 2 ^ n) % 256 := by
  rw [wrap_natCast_toNat, Nat.shiftLeft_eq]

/-- A right shift of a word divides by a power of two (rule R182). -/
theorem wrap_shiftRight_toNat (a : Word) (n : Nat) : (wrap (a.toNat >>> n : Nat)).toNat = a.toNat / 2 ^ n := by
  rw [wrap_natCast_toNat, Nat.shiftRight_eq_div_pow, Nat.mod_eq_of_lt]
  exact lt_of_le_of_lt (Nat.div_le_self _ _) a.isLt

/-- From a count of 8 on, all bits are shifted out to the left. -/
theorem mul_two_pow_mod_eq_zero (a : Nat) {n : Nat} (h : 8 ≤ n) : (a * 2 ^ n) % 256 = 0 :=
  Nat.mod_eq_zero_of_dvd (Dvd.dvd.mul_left (pow_dvd_pow 2 h) a)

/-- From a count of 8 on, all bits are shifted out to the right. -/
theorem toNat_div_two_pow_eq_zero (a : Word) {n : Nat} (h : 8 ≤ n) : a.toNat / 2 ^ n = 0 :=
  Nat.div_eq_of_lt (lt_of_lt_of_le a.isLt (Nat.pow_le_pow_right (by omega) h))

/-- A register that was written with the number 0 holds the word 0. -/
theorem WroteRegister.reg_eq_zero {d : Reg} {v n : Nat} {s t : State} (hw : WroteRegister d v n s t) (hv : v = 0) :
    t.reg d = 0 :=
  BitVec.eq_of_toNat_eq (hw.value.trans hv)

/-- Settles O27: the count is not reduced, so from 8 on every bit is shifted out. -/
theorem shiftsUseTheWholeCount : Obligations.ShiftsUseTheWholeCount := by
  intro s a b i j ha hb
  obtain ⟨t, ht, htw⟩ := exec_wroteRegister (i := .shl a b)
    (aluBinary_of_apply_ok ha hb rfl) (wrap_shiftLeft_toNat _ _)
  obtain ⟨u, hu, huw⟩ := exec_wroteRegister (i := .shr a b)
    (aluBinary_of_apply_ok ha hb rfl) (wrap_shiftRight_toNat _ _)
  exact ⟨⟨t, ht, htw, fun h8 => htw.reg_eq_zero (mul_two_pow_mod_eq_zero _ h8)⟩,
    ⟨u, hu, huw, fun h8 => huw.reg_eq_zero (toNat_div_two_pow_eq_zero _ h8)⟩⟩

/-- Settles O28: the exact result on integers is reduced modulo 256 (rules R183 and R184). -/
theorem incAndDecWrap : Obligations.IncAndDecWrap := by
  intro s a i ha
  exact ⟨exec_wroteRegister (i := .inc a) (aluUnary_of_register s ha)
      (wrap_natCast_toNat ((s.reg i).toNat + 1)),
    exec_wroteRegister (i := .dec a) (aluUnary_of_register s ha) (wrap_toNat _)⟩

end Sys2Proof.Machine

namespace Sys2Proof.Machine

/-! ### CMP (`45_compare.md` rules R200 and R201) -/

/-- The three bits of packed flags are Less, Greater and Equal (`10_state.md` rule R30). -/
theorem packFlags_bits (less greater equal : Bool) :
    (packFlags less greater equal).getLsbD 2 = less ∧ (packFlags less greater equal).getLsbD 1 = greater ∧
      (packFlags less greater equal).getLsbD 0 = equal := by
  cases less <;> cases greater <;> cases equal <;> decide

/-- The flags of a compare are the three comparisons of the unsigned values. -/
theorem compareFlags_bits (a b : Word) :
    ((compareFlags a b).getLsbD 2 = true ↔ a.toNat < b.toNat) ∧
      ((compareFlags a b).getLsbD 1 = true ↔ a.toNat > b.toNat) ∧
      ((compareFlags a b).getLsbD 0 = true ↔ a.toNat = b.toNat) := by
  obtain ⟨hless, hgreater, hequal⟩ :=
    packFlags_bits (decide (a.toNat < b.toNat)) (decide (a.toNat > b.toNat)) (decide (a.toNat = b.toNat))
  simp only [compareFlags, compare, hless, hgreater, hequal, decide_eq_true_eq, and_self, iff_self]

/-- The flags of a compare of equal values. -/
theorem compareFlags_eq {a b : Word} (h : a.toNat = b.toNat) : compareFlags a b = 0b001#3 := by
  rw [BitVec.eq_of_toNat_eq h, compareFlags_self]

/-- CMP of two registers writes the flags and moves `pc` by 3. -/
theorem exec_cmp_of_registers {a b : Byte} {i j : Reg} (s : State) (ha : regIndex a = .ok i) (hb : regIndex b = .ok j) :
    exec (.cmp a b) s = .next ((s.setFl (compareFlags (s.reg i) (s.reg j))).setPc (s.pc + 3)) :=
  exec_of_ok_of_not_control (i := .cmp a b) (by simp [Instr.mnemonic]) (handleCmp_eq_ok.2 ⟨i, j, ha, hb, rfl⟩)

/-- Settles O29: the flags are those of the compare, whose value and bits are known in each case of the order. -/
theorem cmpSetsExactlyOneFlag : Obligations.CmpSetsExactlyOneFlag := by
  intro s a b i j ha hb
  obtain ⟨hless, hgreater, hequal⟩ := compareFlags_bits (s.reg i) (s.reg j)
  exact ⟨_, exec_cmp_of_registers s ha hb, compareFlags_lt, compareFlags_gt, compareFlags_eq, hless, hgreater, hequal,
    fun _ _ => rfl, rfl, rfl, fun _ => rfl, rfl, rfl, rfl⟩

end Sys2Proof.Machine

namespace Sys2Proof.Machine

/-! ### The engine (`40_engine_cycle.md` sections 1 and 2) -/

/-- Settles O31: the step of a running core is one pass, and a pass whose bytes decode is the instruction. -/
theorem stepRunsTheDecodedInstruction : Obligations.StepRunsTheDecodedInstruction := by
  intro s i rest hrun hpc hdec
  rw [step_running hrun, cycle_of_decoded hpc hdec]

/-- A step of a running core whose fetch faults raises that fault. -/
theorem step_of_fetch_error {s : State} {f : Fault} (hrun : s.run = .running) (hf : fetch s = .error f) :
    step s = .next (s.raise f) := by
  rw [step_running hrun, cycle_of_fetch_error hf]

/-- Settles O33: above 253 the fetch raises one of its three faults, by the value of `pc`. -/
theorem fetchPastTheEndFaults : Obligations.FetchPastTheEndFaults := by
  intro s hrun
  refine ⟨fun hpc => ?_, fun hpc => ?_, fun hpc => ?_⟩
  all_goals
    refine step_of_fetch_error hrun ?_
    rw [fetch_eq_error (by omega), hpc]
    rfl

/-- Settles O35: the pass ends in `unsupported`, which the policy decides. -/
theorem unrecognizedOpcodeFollowsThePolicy : Obligations.UnrecognizedOpcodeFollowsThePolicy := by
  intro s hrun hpc hlookup
  have hstep : step s = .next (unsupported (s.byteAt s.pc) s) := by
    rw [step_running hrun, cycle_of_unrecognized hpc hlookup]
  refine ⟨fun hfatal => ?_, fun hskip => ?_⟩
  · rw [hstep, unsupported_fatal _ hfatal]
  · rw [unsupported_skip _ hskip] at hstep
    exact ⟨_, hstep, rfl, rfl, rfl, rfl, fun _ _ => rfl, rfl, hrun, fun _ => rfl⟩

/-- Settles O40: a step looks at `RUN` before anything else. -/
theorem terminalStatesExecuteNothing : Obligations.TerminalStatesExecuteNothing := fun _ =>
  ⟨step_halted, fun _ => step_faulted⟩

/-- An unrecognized opcode of a running core raises its fault, or leaves the core running. -/
theorem unsupported_cases {s : State} (ir : Byte) (hrun : s.run = .running) :
    unsupported ir s = s.raise (.unsupportedOpcode ir s.pc) ∨ (unsupported ir s).run = .running := by
  cases hp : s.unsupportedPolicy with
  | fatal => exact .inl (unsupported_fatal ir hp)
  | skip => exact .inr (by rw [unsupported_skip ir hp]; exact hrun)

/-! ### Faults (`60_exceptions.md` section 3) -/

/-- A step of a running core that ends faulted is a raise on the state before it (rule R216). -/
theorem step_eq_raise_of_faulted {s t : State} {f : Fault} (hrun : s.run = .running) (hstep : step s = .next t)
    (hf : t.run = .faulted f) : t = s.raise f := by
  rcases step_cases hstep with
    ⟨hhalt, -⟩ | ⟨-, ⟨g, rfl, -⟩ | ⟨-, -, rfl⟩ | ⟨-, i, rest, -, ⟨u, hu, rfl⟩ | ⟨g, -, rfl⟩⟩⟩
  · cases hrun.symm.trans hhalt
  · cases hf
    rfl
  · rcases unsupported_cases (s.byteAt s.pc) hrun with heq | hr
    · rw [heq] at hf ⊢
      cases hf
      rfl
    · cases hr.symm.trans hf
  · exact absurd hf (run_of_completed hrun hu f)
  · cases hf
    rfl

/-- Settles O38: the faulting step is a raise, which writes `RUN` alone. -/
theorem aFaultChangesOnlyRun : Obligations.AFaultChangesOnlyRun := by
  intro s t f hrun hstep hf
  rw [step_eq_raise_of_faulted hrun hstep hf]
  exact ⟨fun _ _ => rfl, rfl, rfl, fun _ => rfl, rfl, rfl, rfl⟩

/-- Settles O37: the recorded fault is the handler's, and a handler raises this one in four cases only (rule R217). -/
theorem stackPointerFaultsComeFromStackInstructions : Obligations.StackPointerFaultsComeFromStackInstructions := by
  intro i s t v hrun h hf
  have herror := (exec_run_faulted_iff hrun h _).1 hf
  rcases handler_error_cases herror with
    ⟨b, hb, -⟩ | ⟨-, ⟨d, hd⟩ | ⟨hi, hsp, hv⟩ | ⟨hi, hsp, hv⟩ | ⟨a, hi, hv, hcase⟩⟩
  · cases hb
  · cases hd
  · cases hv
    exact .inl ⟨hi, hsp, rfl⟩
  · cases hv
    exact .inr (.inl ⟨hi, hsp, rfl⟩)
  · cases hv
    exact .inr (.inr ⟨a, hi, rfl, hcase⟩)

/-- A completed instruction that halts a running core is HLT, and `pc` is after it. -/
theorem hlt_of_completed_halted {i : Instr} {s u : State} (hrun : s.run = .running) (hu : handlerOf i s = .ok u)
    (hhalt : (advance (opc i.mnemonic) u).run = .halted) : i = .hlt ∧ (advance (opc i.mnemonic) u).pc = s.pc + 1 := by
  obtain ⟨-, hr, -⟩ := handler_ok_frame hu
  rw [advance_run] at hhalt
  rcases hr with hsame | ⟨rfl, -⟩
  · cases hrun.symm.trans (hsame.symm.trans hhalt)
  · exact ⟨rfl, completed_pc_of_not_set hu rfl⟩

/-- Settles O39: neither a raise nor a skip halts, and of the completed instructions only HLT does. -/
theorem onlyHltHalts : Obligations.OnlyHltHalts := by
  intro s t hrun hstep hhalt
  rcases step_cases hstep with
    ⟨hhalted, -⟩ | ⟨-, ⟨f, rfl, -⟩ | ⟨-, -, rfl⟩ | ⟨-, i, rest, hdec, ⟨u, hu, rfl⟩ | ⟨f, -, rfl⟩⟩⟩
  · cases hrun.symm.trans hhalted
  · cases hhalt
  · rcases unsupported_cases (s.byteAt s.pc) hrun with heq | hr
    · rw [heq] at hhalt
      cases hhalt
    · cases hr.symm.trans hhalt
  · obtain ⟨rfl, hpc⟩ := hlt_of_completed_halted hrun hu hhalt
    exact ⟨hpc, rest, hdec⟩
  · cases hhalt

end Sys2Proof.Machine

namespace Sys2Proof.Machine

/-! ### What a step writes (`10_state.md` sections 1 and 7, `20_memory.md` section 4) -/

/-- A step that changes something no raise and no unrecognized opcode changes has completed an instruction. -/
theorem completed_of_step_changes {α : Type} (read : State → α) (hraise : ∀ s f, read (s.raise f) = read s)
    (hunsupported : ∀ s ir, read (unsupported ir s) = read s) {s t : State} (hstep : step s = .next t)
    (hne : read t ≠ read s) :
    ∃ i rest u, decode [s.byteAt s.pc, s.byteAt (s.pc + 1), s.byteAt (s.pc + 2)] = .ok (i, rest) ∧
      handlerOf i s = .ok u ∧ t = advance (opc i.mnemonic) u := by
  rcases step_cases hstep with
    ⟨-, rfl⟩ | ⟨-, ⟨f, rfl, -⟩ | ⟨-, -, rfl⟩ | ⟨-, i, rest, hdec, ⟨u, hu, rfl⟩ | ⟨f, -, rfl⟩⟩⟩
  · exact absurd rfl hne
  · exact absurd (hraise s f) hne
  · exact absurd (hunsupported s _) hne
  · exact ⟨i, rest, u, hdec, hu, rfl⟩
  · exact absurd (hraise s f) hne

@[simp] theorem unsupported_reg (ir : Byte) (s : State) (r : Reg) : (unsupported ir s).reg r = s.reg r := by
  obtain ⟨-, hregs, -⟩ := unsupported_frame (ir := ir) (s := s)
  rw [State.reg, hregs, State.reg]

@[simp] theorem unsupported_byteAt (ir : Byte) (s : State) (a : Nat) : (unsupported ir s).byteAt a = s.byteAt a := by
  obtain ⟨hmem, -⟩ := unsupported_frame (ir := ir) (s := s)
  rw [State.byteAt, hmem, State.byteAt]

@[simp] theorem unsupported_out (ir : Byte) (s : State) : (unsupported ir s).out = s.out := by
  obtain ⟨-, -, hout, -⟩ := unsupported_frame (ir := ir) (s := s)
  exact hout

@[simp] theorem unsupported_policy (ir : Byte) (s : State) :
    (unsupported ir s).unsupportedPolicy = s.unsupportedPolicy := by
  obtain ⟨-, -, -, -, hpolicy⟩ := unsupported_frame (ir := ir) (s := s)
  exact hpolicy

/-- A register that a write changed is the one written. -/
theorem eq_of_setReg_reg_ne {s : State} {d r : Reg} {v : Word} (h : (s.setReg d v).reg r ≠ s.reg r) : r = d := by
  by_contra hne
  exact h (setReg_reg_ne s v hne)

/-- A register that two writes changed is one of the two written. -/
theorem eq_or_eq_of_setReg_setReg_reg_ne {s : State} {d e r : Reg} {v w : Word}
    (h : ((s.setReg d v).setReg e w).reg r ≠ s.reg r) : r = d ∨ r = e := by
  by_contra hne
  obtain ⟨hd, he⟩ := not_or.1 hne
  exact h ((setReg_reg_ne _ w he).trans (setReg_reg_ne s v hd))

/-- A completed handler changes a register only as the destination of its instruction or as the stack pointer. -/
theorem destination_of_handler_changes_reg {i : Instr} {s u : State} {r : Reg} (h : handlerOf i s = .ok u)
    (hne : u.reg r ≠ s.reg r) :
    (∃ a, i.registerOperands.head? = some a ∧ regIndex a = .ok r ∧
      i.mnemonic ∈ [.ldi, .pop, .add, .sub, .mul, .div, .mod, .and, .or, .xor, .shl, .shr, .inc, .dec]) ∨
    (r = .sp ∧ i.mnemonic ∈ [.push, .pop, .call, .ret]) := by
  cases i <;> simp only [handlerOf] at h
  case hlt => cases h; exact absurd rfl hne
  case prn => obtain ⟨_, _, rfl⟩ := handlePrn_eq_ok.1 h; exact absurd rfl hne
  case jmp => obtain ⟨_, _, rfl⟩ := jumpTo_eq_ok.1 h; exact absurd rfl hne
  case jeq => obtain ⟨_, _, _, rfl⟩ | ⟨_, rfl⟩ := jumpIf_eq_ok.1 h <;> exact absurd rfl hne
  case jne => obtain ⟨_, _, _, rfl⟩ | ⟨_, rfl⟩ := jumpIf_eq_ok.1 h <;> exact absurd rfl hne
  case cmp => obtain ⟨_, _, _, _, rfl⟩ := handleCmp_eq_ok.1 h; exact absurd rfl hne
  case push =>
    obtain ⟨_, _, _, rfl⟩ := handlePush_eq_ok.1 h
    exact .inr ⟨eq_of_setReg_reg_ne hne, by simp [Instr.mnemonic]⟩
  case call =>
    obtain ⟨_, _, _, rfl⟩ := handleCall_eq_ok.1 h
    exact .inr ⟨eq_of_setReg_reg_ne hne, by simp [Instr.mnemonic]⟩
  case ret =>
    obtain ⟨_, rfl⟩ := handleRet_eq_ok.1 h
    exact .inr ⟨eq_of_setReg_reg_ne hne, by simp [Instr.mnemonic]⟩
  case pop a =>
    obtain ⟨i, _, ha, rfl, _, rfl⟩ := handlePop_eq_ok.1 h
    rcases eq_or_eq_of_setReg_setReg_reg_ne hne with rfl | hsp
    · exact .inl ⟨a, rfl, ha, by simp [Instr.mnemonic]⟩
    · exact .inr ⟨hsp, by simp [Instr.mnemonic]⟩
  case ldi a _ =>
    obtain ⟨_, ha, rfl⟩ := handleLdi_eq_ok.1 h
    exact .inl ⟨a, rfl, eq_of_setReg_reg_ne hne ▸ ha, by simp [Instr.mnemonic]⟩
  case inc a | dec a =>
    obtain ⟨_, ha, rfl⟩ := aluUnary_eq_ok.1 h
    exact .inl ⟨a, rfl, eq_of_setReg_reg_ne hne ▸ ha, by simp [Instr.mnemonic]⟩
  all_goals
    obtain ⟨_, _, _, ha, _, _, rfl⟩ := aluBinary_eq_ok.1 h
    exact .inl ⟨_, rfl, eq_of_setReg_reg_ne hne ▸ ha, by simp [Instr.mnemonic]⟩

/-- Settles O41: the step that changes a register has completed an instruction, whose handler wrote it. -/
theorem registersAreWrittenByDestinationOnly : Obligations.RegistersAreWrittenByDestinationOnly := by
  intro s t r hstep hne
  obtain ⟨i, rest, u, hdec, hu, rfl⟩ :=
    completed_of_step_changes (·.reg r) (fun _ _ => rfl) (fun _ _ => unsupported_reg _ _ _) hstep hne
  rw [advance_reg] at hne
  exact ⟨i, rest, hdec, destination_of_handler_changes_reg hu hne⟩

/-- Settles O42: the step that changes a cell has completed an instruction, whose handler stored below the stack pointer. -/
theorem memoryIsWrittenByPushAndCallOnly : Obligations.MemoryIsWrittenByPushAndCallOnly := by
  intro s t c hm hstep hne
  obtain ⟨i, rest, u, hdec, hu, rfl⟩ :=
    completed_of_step_changes (·.byteAt c) (fun _ _ => rfl) (fun _ _ => unsupported_byteAt _ _ _) hstep hne
  obtain ⟨-, -, -, hmem, -⟩ := handler_ok_frame hu
  rw [advance_byteAt, State.byteAt, State.byteAt] at hne
  rcases hmem with hsame | ⟨hi, hsp, v, hset⟩
  · exact absurd (congrArg (Memory.get · c) hsame) hne
  · refine ⟨?_, i, rest, hdec, hi⟩
    rw [hset, Memory.get_set v hm] at hne
    by_cases hc : c = (s.reg .sp).toNat - 1
    · omega
    · exact absurd (if_neg hc) hne

/-- Settles O43: the step that changes the output has completed an instruction, which is a PRN. -/
theorem outputGrowsByPrnOnly : Obligations.OutputGrowsByPrnOnly := by
  intro s t hstep
  by_cases hsame : t.out = s.out
  · exact .inl hsame
  · obtain ⟨i, rest, u, hdec, hu, rfl⟩ :=
      completed_of_step_changes (·.out) (fun _ _ => rfl) (fun _ _ => unsupported_out _ _) hstep hsame
    obtain ⟨-, -, hout, -⟩ := handler_ok_frame hu
    rw [advance_out] at hsame ⊢
    rcases hout with h | ⟨a, r, rfl, ha, h⟩
    · exact absurd h hsame
    · exact .inr ⟨a, r, rest, hdec, ha, h⟩

/-- Settles O45: no handler touches the policy or the skip log; an unrecognized opcode makes a report under `skip` alone. -/
theorem policyIsConstant : Obligations.PolicyIsConstant := by
  intro s t hstep
  rcases step_cases hstep with
    ⟨-, rfl⟩ | ⟨-, ⟨f, rfl, -⟩ | ⟨-, -, rfl⟩ | ⟨-, i, rest, -, ⟨u, hu, rfl⟩ | ⟨f, -, rfl⟩⟩⟩
  · exact ⟨rfl, fun _ => rfl⟩
  · exact ⟨rfl, fun _ => rfl⟩
  · refine ⟨unsupported_policy _ _, fun hfatal => ?_⟩
    rw [unsupported_fatal _ hfatal, raise_skipReports]
  · obtain ⟨⟨hpolicy, hreports⟩, -⟩ := handler_ok_frame hu
    exact ⟨(advance_policy _ _).trans hpolicy, fun _ => (advance_skipReports _ _).trans hreports⟩
  · exact ⟨rfl, fun _ => rfl⟩

end Sys2Proof.Machine

namespace Sys2Proof.Machine

/-! ### The event logs are not read (`10_state.md` section 7) -/

/-- The state with other bytes emitted before its output and other reports made before its skip reports. -/
def State.prependLogs (s : State) (o : List Byte) (r : List (Byte × Nat)) : State :=
  { s with out := o ++ s.out, skipReports := r ++ s.skipReports }

@[simp] theorem prependLogs_byteAt (s : State) (o : List Byte) (r : List (Byte × Nat)) (a : Nat) :
    (s.prependLogs o r).byteAt a = s.byteAt a := rfl

/-- An emission goes behind the bytes emitted before. -/
theorem emit_prependLogs (s : State) (o : List Byte) (r : List (Byte × Nat)) (v : Byte) :
    (s.prependLogs o r).emit v = (s.emit v).prependLogs o r := by
  simp only [State.emit, State.prependLogs, List.append_assoc]

theorem advance_prependLogs (ir : Byte) (s : State) (o : List Byte) (r : List (Byte × Nat)) :
    advance ir (s.prependLogs o r) = (advance ir s).prependLogs o r := by
  unfold advance
  split <;> rfl

/-- A report goes behind the reports made before. -/
theorem unsupported_prependLogs (ir : Byte) (s : State) (o : List Byte) (r : List (Byte × Nat)) :
    unsupported ir (s.prependLogs o r) = (unsupported ir s).prependLogs o r := by
  cases hp : s.unsupportedPolicy with
  | fatal =>
    rw [unsupported_fatal ir hp, unsupported_fatal ir (s := s.prependLogs o r) hp]
    rfl
  | skip =>
    rw [unsupported_skip ir hp, unsupported_skip ir (s := s.prependLogs o r) hp]
    simp only [State.prependLogs, List.append_assoc]

/-- Completed from one state, a handler completes in the same way whatever was logged before. -/
theorem handler_ok_prependLogs {i : Instr} {s t : State} (o : List Byte) (r : List (Byte × Nat))
    (h : handlerOf i s = .ok t) : handlerOf i (s.prependLogs o r) = .ok (t.prependLogs o r) := by
  cases i <;> simp only [handlerOf] at h ⊢
  case hlt => cases h; rfl
  case ldi => obtain ⟨d, hd, rfl⟩ := handleLdi_eq_ok.1 h; exact handleLdi_eq_ok.2 ⟨d, hd, rfl⟩
  case prn =>
    obtain ⟨d, hd, rfl⟩ := handlePrn_eq_ok.1 h
    exact handlePrn_eq_ok.2 ⟨d, hd, (emit_prependLogs s o r _).symm⟩
  case push => obtain ⟨d, hd, h0, rfl⟩ := handlePush_eq_ok.1 h; exact handlePush_eq_ok.2 ⟨d, hd, h0, rfl⟩
  case pop =>
    obtain ⟨d, _, hd, rfl, h0, rfl⟩ := handlePop_eq_ok.1 h
    exact handlePop_eq_ok.2 ⟨d, _, hd, rfl, h0, rfl⟩
  case call => obtain ⟨d, hd, h0, rfl⟩ := handleCall_eq_ok.1 h; exact handleCall_eq_ok.2 ⟨d, hd, h0, rfl⟩
  case ret => obtain ⟨h0, rfl⟩ := handleRet_eq_ok.1 h; exact handleRet_eq_ok.2 ⟨h0, rfl⟩
  case jmp => obtain ⟨d, hd, rfl⟩ := jumpTo_eq_ok.1 h; exact jumpTo_eq_ok.2 ⟨d, hd, rfl⟩
  case jeq | jne =>
    obtain ⟨hc, d, hd, rfl⟩ | ⟨hc, rfl⟩ := jumpIf_eq_ok.1 h
    · exact jumpIf_eq_ok.2 (.inl ⟨hc, d, hd, rfl⟩)
    · exact jumpIf_eq_ok.2 (.inr ⟨hc, rfl⟩)
  case inc | dec => obtain ⟨d, hd, rfl⟩ := aluUnary_eq_ok.1 h; exact aluUnary_eq_ok.2 ⟨d, hd, rfl⟩
  case cmp => obtain ⟨d, e, hd, he, rfl⟩ := handleCmp_eq_ok.1 h; exact handleCmp_eq_ok.2 ⟨d, e, hd, he, rfl⟩
  all_goals
    obtain ⟨d, e, v, hd, he, hv, rfl⟩ := aluBinary_eq_ok.1 h
    exact aluBinary_eq_ok.2 ⟨d, e, v, hd, he, hv, rfl⟩

/-- What a handler raises does not depend on what was logged before. -/
theorem handler_error_prependLogs {i : Instr} {s : State} {f : Fault} (o : List Byte) (r : List (Byte × Nat))
    (h : handlerOf i s = .error f) : handlerOf i (s.prependLogs o r) = .error f := by
  cases i
  case hlt => cases h
  all_goals
    simp only [handlerOf, handleLdi_eq_error, handlePrn_eq_error, handlePush_eq_error, handlePop_eq_error,
      handleCall_eq_error, handleRet_eq_error, jumpTo_eq_error, jumpIf_eq_error, aluUnary_eq_error, handleCmp_eq_error,
      aluBinary_eq_error] at h ⊢
    exact h

/-- An instruction answers the same from a state with other logs before, and leaves these in front. -/
theorem exec_prependLogs {i : Instr} {s t : State} (o : List Byte) (r : List (Byte × Nat)) (h : exec i s = .next t) :
    exec i (s.prependLogs o r) = .next (t.prependLogs o r) := by
  rcases exec_eq_next.1 h with ⟨u, hu, rfl⟩ | ⟨f, hf, rfl⟩
  · rw [exec_of_ok (handler_ok_prependLogs o r hu), advance_prependLogs]
  · rw [exec_of_error (handler_error_prependLogs o r hf)]
    rfl

/-- So does a whole pass: the fetch reads memory alone. -/
theorem cycle_prependLogs {s t : State} (o : List Byte) (r : List (Byte × Nat)) (h : cycle s = .next t) :
    cycle (s.prependLogs o r) = .next (t.prependLogs o r) := by
  rcases cycle_cases s with ⟨-, f, hf, hc⟩ | ⟨hpc, hlookup, hc⟩ | ⟨hpc, i, rest, hdec, hc⟩ <;> rw [hc] at h
  · cases h
    exact cycle_of_fetch_error hf
  · cases h
    rw [cycle_of_unrecognized (s := s.prependLogs o r) hpc hlookup, prependLogs_byteAt, unsupported_prependLogs]
    rfl
  · rw [cycle_of_decoded (s := s.prependLogs o r) hpc hdec, exec_prependLogs o r h]

/-- Settles O44: a running core does one pass, a halted one stays as it is. -/
theorem eventLogsAreNeverRead : Obligations.EventLogsAreNeverRead := by
  intro s t o r hstep
  change step (s.prependLogs o r) = .next (t.prependLogs o r)
  cases hrun : s.run with
  | running =>
    rw [step_running hrun] at hstep
    rw [step_running (s := s.prependLogs o r) hrun, cycle_prependLogs o r hstep]
  | halted =>
    rw [step_halted hrun] at hstep
    cases hstep
    exact step_halted (s := s.prependLogs o r) hrun
  | faulted f =>
    rw [step_faulted hrun] at hstep
    cases hstep

end Sys2Proof.Machine

namespace Sys2Proof.Machine

/-! ### Reset, Load and Observe (`70_reset_and_hazards.md` section 1, `60_exceptions.md` section 7) -/

/-- Every register but the stack pointer is 0 after reset (`92_eei_decisions.md` D8). -/
theorem reset_reg_of_ne_sp {r : Reg} (h : r ≠ .sp) : State.reset.reg r = 0 := by
  cases r <;> first | rfl | exact absurd rfl h

/-- Settles O50: a later reset has every field of the first but the model argument. -/
theorem resetLeavesZeros : Obligations.ResetLeavesZeros := fun s a r hr =>
  ⟨reset_byteAt a, rfl, rfl, rfl, (applyReset_reg s r).trans (reset_reg_of_ne_sp hr), rfl, rfl, rfl⟩

/-- An image of at most 256 bytes is placed from cell 0 (rule R243). -/
theorem load_of_le {s : State} {bytes : List Byte} (h : bytes.length ≤ 256) :
    s.load bytes = .next { s with mem := s.mem.place 0 bytes } := if_pos h

/-- A longer image is refused (rule R243). -/
theorem load_of_lt {s : State} {bytes : List Byte} (h : 256 < bytes.length) :
    s.load bytes = .refused (.imageTooLong bytes.length) := if_neg (Nat.not_le.2 h)

/-- A cell inside the image holds its byte. -/
theorem get_place_zero_of_getElem? {m : Memory} {bytes : List Byte} (hm : m.wf) (hlen : bytes.length ≤ 256) {k : Nat}
    {v : Byte} (hk : bytes[k]? = some v) : (m.place 0 bytes).get k = v := by
  obtain ⟨hlt, hv⟩ := List.getElem?_eq_some_iff.1 hk
  rw [Memory.get_place bytes 0 k hm (lt_of_lt_of_le hlt hlen), if_pos (by omega), Nat.sub_zero, List.getD_eq_getElem _ _ hlt,
    hv]

/-- A cell past the image reads as before. -/
theorem get_place_zero_of_le {m : Memory} {bytes : List Byte} (hm : m.wf) {k : Nat} (hlen : bytes.length ≤ k)
    (hk : k < 256) : (m.place 0 bytes).get k = m.get k := by
  rw [Memory.get_place bytes 0 k hm hk, if_neg (by omega)]

/-- Settles O51: the image replaces the cells below its length, in canonical form. -/
theorem loadPlacesTheImage : Obligations.LoadPlacesTheImage := by
  intro s bytes hs
  refine ⟨fun hlen => ⟨_, load_of_le hlen, ?_, fun k v => get_place_zero_of_getElem? hs.memory hlen,
    fun k => get_place_zero_of_le hs.memory, fun _ _ => rfl, rfl, rfl, rfl, rfl, rfl, rfl⟩, load_of_lt⟩
  exact ⟨Memory.place_wf bytes 0 hs.memory, hs.pcRange, hs.flags, hs.cause⟩

/-- A fetch that succeeds was made at 0 to 253 (`40_engine_cycle.md` rule R113). -/
theorem pc_le_of_fetch_ok {s : State} {bytes : Byte × Byte × Byte} (h : fetch s = .ok bytes) : s.pc ≤ 253 := by
  by_contra hgt
  rw [fetch_eq_error (Nat.lt_of_not_le hgt)] at h
  cases h

/-- The tracer sees a cell inside the memory. -/
theorem cell?_of_lt (s : State) {a : Nat} (h : a < 256) : s.cell? a = some (s.byteAt a) :=
  if_pos (by rw [inMemory_natCast, decide_eq_true_iff]; exact h)

/-- Settles O52: the three cells of a fetch that succeeds lie inside the memory, where the tracer sees them. -/
theorem observeShowsWhatFetchWillRead : Obligations.ObserveShowsWhatFetchWillRead := by
  intro s ir a b h
  have hpc := pc_le_of_fetch_ok h
  rw [fetch_eq_ok hpc] at h
  cases h
  refine ⟨rfl, rfl, rfl, ?_⟩
  rw [State.observe, cell?_of_lt s (by omega), cell?_of_lt s (by omega), cell?_of_lt s (by omega)]

end Sys2Proof.Machine
